-- ==== Sys2Proof/Word.lean ====
section
/-! DEFINITION. Word.lean: the raw types of the block: a bit sequence (R7), a command byte (R60), a buffer byte (R41). -/

namespace Sys2Proof

/-- A field or bit sequence: a finite list of bits, the first stored bit first (R7). Lengths are unbounded (R5). -/
abbrev Bits := List Bool

/-- A byte: the command word `CMD[7:0]` (R60), a token code `TK[7:0]` (R67), a byte of a host buffer (R41). -/
abbrev Byte := BitVec 8

end Sys2Proof
end

