-- ==== Sys2Proof/Config.lean ====
section
/-! DEFINITION. Config.lean: the two parameters of an instance, HOSTORD and MAX_LEN (R4, R5, R6), and the open value of HOSTORD. -/

namespace Sys2Proof

/-- The two values of the input `HOSTORD` (R4). -/
inductive HostOrder where
  | big
  | little
deriving DecidableEq, Repr, Inhabited

/-- What is fixed for one instance of the block (R6): the input `HOSTORD` (R4, R25) and the limit `MAX_LEN`
(R5; `none` is ∞). No command and no reset changes either. -/
structure Params where
  hostOrd : HostOrder
  maxLen  : Option Nat
deriving DecidableEq, Repr

/-- `HOSTORD` of the instance that `State.reset` describes: OPEN (R4, D11). It has no body, so no proof can
see which order it is. Log 3. -/
opaque Config.hostOrder : HostOrder

/-- `MAX_LEN` of the instance that `State.reset` describes: the spec's default ∞ (R5). Log 4. -/
def Config.maxLen : Option Nat := none

/-- The instance that `State.reset` describes. -/
def Config.params : Params := ⟨Config.hostOrder, Config.maxLen⟩

end Sys2Proof
end

