-- ==== Sys2Proof/Syntax.lean ====
section
/-! DEFINITION. Syntax.lean: the 40 commands (R71), their operands, and the raw transaction on the command port (R60, R66). -/

namespace Sys2Proof

/-- The signedness code `SG` (R62): `0` unsigned, `1` two's complement. -/
inductive Sign where
  | unsigned
  | signed
deriving DecidableEq, Repr

/-- The byte-order code `BO` (R47, R62): bit-wise, big-endian, little-endian, host order. -/
inductive ByteOrder where
  | bit
  | be
  | le
  | ne
deriving DecidableEq, Repr

/-- One of the eight integer dtypes (R70). -/
structure Dtype where
  sg : Sign
  bo : ByteOrder
deriving DecidableEq, Repr

/-- A token of a plan (R67): a dtype and a length in bits; an absent length is stretchy. -/
structure Token where
  dt  : Dtype
  len : Option Nat
deriving DecidableEq, Repr

/-- The value of the bit-numbering origin `ORIGIN` (R22). -/
inductive Origin where
  | msb0
  | lsb0
deriving DecidableEq, Repr

/-- The 40 commands of the opcode map (R71), each with its operand record's fields (R66). -/
inductive Instr where
  | encUint   (len : Option Nat) (val : Int)
  | encUintbe (len : Option Nat) (val : Int)
  | encUintle (len : Option Nat) (val : Int)
  | encUintne (len : Option Nat) (val : Int)
  | encInt    (len : Option Nat) (val : Int)
  | encIntbe  (len : Option Nat) (val : Int)
  | encIntle  (len : Option Nat) (val : Int)
  | encIntne  (len : Option Nat) (val : Int)
  | decUint   (fld : Bits)
  | decUintbe (fld : Bits)
  | decUintle (fld : Bits)
  | decUintne (fld : Bits)
  | decInt    (fld : Bits)
  | decIntbe  (fld : Bits)
  | decIntle  (fld : Bits)
  | decIntne  (fld : Bits)
  | readUint   (len : Option Nat)
  | readUintbe (len : Option Nat)
  | readUintle (len : Option Nat)
  | readUintne (len : Option Nat)
  | readInt    (len : Option Nat)
  | readIntbe  (len : Option Nat)
  | readIntle  (len : Option Nat)
  | readIntne  (len : Option Nat)
  | peekUint   (len : Option Nat)
  | peekUintbe (len : Option Nat)
  | peekUintle (len : Option Nat)
  | peekUintne (len : Option Nat)
  | peekInt    (len : Option Nat)
  | peekIntbe  (len : Option Nat)
  | peekIntle  (len : Option Nat)
  | peekIntne  (len : Option Nat)
  | readlist  (plan : List Token)
  | peeklist  (plan : List Token)
  | unpack    (plan : List Token)
  | pack      (plan : List (Token × Int))
  | setpos    (p : Int)
  | setorigin (o : Origin)
  | bind      (seq : Bits)
  | getpos
deriving DecidableEq, Repr

/-- A token as it stands on the port: its code byte `TK[7:0]` and its length (R67). -/
structure RawToken where
  tk  : Byte
  len : Option Nat
deriving DecidableEq, Repr

/-- An operand record as it stands on the port, one constructor per format of R66. -/
inductive Record where
  | cEnc  (len : Option Nat) (val : Int)
  | cDec  (fld : Bits)
  | sTok  (len : Option Nat)
  | sPlan (plan : List RawToken)
  | sPack (plan : List (RawToken × Int))
  | kPos  (p : Int)
  | kOrg  (o : Bool)
  | kBind (seq : Bits)
  | kNone
deriving DecidableEq, Repr

/-- One transaction on the command port: the command word and its operand record (R60). -/
structure Transaction where
  cmd      : Byte
  operands : Record
deriving DecidableEq, Repr

end Sys2Proof
end

