-- ==== Sys2Proof/WellFormed.lean ====
section
/-! DEFINITION. WellFormed.lean: which commands an instance gives a meaning to (R5). Every operand is typed (R66), so what is
left to check is the limit MAX_LEN, on the operands that the pipelines check it on. -/

namespace Sys2Proof

/-- A length the instance supports: at most `MAX_LEN` (R5; `none` is ∞). -/
def Params.within (prm : Params) (n : Nat) : Bool :=
  match prm.maxLen with
  | none   => true
  | some m => decide (n ≤ m)

/-- The length operand of an encode: absent, or within the limit (R80 stage E1a). -/
def Params.lenWithin (prm : Params) (len : Option Nat) : Bool :=
  match len with
  | none   => true
  | some n => prm.within n

/-- The sum of the lengths that a plan names, a stretchy token counting nothing (R5, R140 stage P2). -/
def planTotal : List Token → Nat
  | []      => 0
  | t :: ts => t.len.getD 0 + planTotal ts

/-- The sum of the lengths that a pack plan names (R144: the length of the packed field). -/
def packTotal (plan : List (Token × Int)) : Nat := planTotal (plan.map Prod.fst)

/-- The commands the instance is sure to give a meaning: each field length, plan total and bound sequence that a
pipeline compares with `MAX_LEN` is within it (R5: R80 E1a, R100 D0, R144, R147; for the read plans log 10). The field of a READ or
PEEK, and what a stretchy entry takes, lies inside `SEQ`, which BIND has checked, so it needs no check of its own. Log 18. -/
def Instr.wellFormed (prm : Params) : Instr → Bool
  | .encUint len _ | .encUintbe len _ | .encUintle len _ | .encUintne len _
  | .encInt len _ | .encIntbe len _ | .encIntle len _ | .encIntne len _ => prm.lenWithin len
  | .decUint fld | .decUintbe fld | .decUintle fld | .decUintne fld
  | .decInt fld | .decIntbe fld | .decIntle fld | .decIntne fld => prm.within fld.length
  | .readUint _ | .readUintbe _ | .readUintle _ | .readUintne _
  | .readInt _ | .readIntbe _ | .readIntle _ | .readIntne _ => true
  | .peekUint _ | .peekUintbe _ | .peekUintle _ | .peekUintne _
  | .peekInt _ | .peekIntbe _ | .peekIntle _ | .peekIntne _ => true
  | .readlist plan | .peeklist plan | .unpack plan => prm.within (planTotal plan)
  | .pack plan => plan.all (fun e => prm.lenWithin e.1.len) && prm.within (packTotal plan)
  | .setpos _ => true
  | .setorigin _ => true
  | .bind seq => prm.within seq.length
  | .getpos => true

end Sys2Proof
end

