-- ==== Sys2Proof/Decode.lean ====
section
/-! DEFINITION. Decode.lean: from a transaction on the command port to a command or a rejection by name (R61 to R71), and the
encoder, written from the opcode map (R71) and not from the field layouts that the decoder reads. -/

namespace Sys2Proof

/-! ## The commands of a dtype -/

/-- ENC.<dt> (R85 to R92). -/
def Instr.enc (dt : Dtype) (len : Option Nat) (val : Int) : Instr :=
  match dt.sg, dt.bo with
  | .unsigned, .bit => .encUint len val
  | .unsigned, .be  => .encUintbe len val
  | .unsigned, .le  => .encUintle len val
  | .unsigned, .ne  => .encUintne len val
  | .signed,   .bit => .encInt len val
  | .signed,   .be  => .encIntbe len val
  | .signed,   .le  => .encIntle len val
  | .signed,   .ne  => .encIntne len val

/-- DEC.<dt> (R104 to R111). -/
def Instr.dec (dt : Dtype) (fld : Bits) : Instr :=
  match dt.sg, dt.bo with
  | .unsigned, .bit => .decUint fld
  | .unsigned, .be  => .decUintbe fld
  | .unsigned, .le  => .decUintle fld
  | .unsigned, .ne  => .decUintne fld
  | .signed,   .bit => .decInt fld
  | .signed,   .be  => .decIntbe fld
  | .signed,   .le  => .decIntle fld
  | .signed,   .ne  => .decIntne fld

/-- READ.<dt> (R123 to R130). -/
def Instr.read (dt : Dtype) (len : Option Nat) : Instr :=
  match dt.sg, dt.bo with
  | .unsigned, .bit => .readUint len
  | .unsigned, .be  => .readUintbe len
  | .unsigned, .le  => .readUintle len
  | .unsigned, .ne  => .readUintne len
  | .signed,   .bit => .readInt len
  | .signed,   .be  => .readIntbe len
  | .signed,   .le  => .readIntle len
  | .signed,   .ne  => .readIntne len

/-- PEEK.<dt> (R132 to R139). -/
def Instr.peek (dt : Dtype) (len : Option Nat) : Instr :=
  match dt.sg, dt.bo with
  | .unsigned, .bit => .peekUint len
  | .unsigned, .be  => .peekUintbe len
  | .unsigned, .le  => .peekUintle len
  | .unsigned, .ne  => .peekUintne len
  | .signed,   .bit => .peekInt len
  | .signed,   .be  => .peekIntbe len
  | .signed,   .le  => .peekIntle len
  | .signed,   .ne  => .peekIntne len

/-! ## Decoding -/

/-- Why a transaction is rejected. -/
inductive DecodeError where
  /-- A reserved command word or a token code with `TK[7:3] ≠ 0` (R65, R67); the info is the `CMD` value (R150). -/
  | illegalCommand (cmd : Byte)
  /-- The operand record is not of the format that `CMD` selects, which the port cannot carry (R66; log 7). -/
  | recordFormat (cmd : Byte)
deriving DecidableEq, Repr

/-- What a command word selects, before its operand record is read (R61 to R64). -/
inductive Op where
  | enc  (dt : Dtype)
  | dec  (dt : Dtype)
  | read (dt : Dtype)
  | peek (dt : Dtype)
  | readlist
  | peeklist
  | unpack
  | pack
  | setpos
  | setorigin
  | bind
  | getpos
deriving DecidableEq, Repr

/-- The signedness that the `SG` bit codes (R62). -/
def decodeSign (sg : Bool) : Sign := if sg then .signed else .unsigned

/-- The byte order that the two `BO` bits code (R62). -/
def decodeByteOrder (bo : BitVec 2) : ByteOrder :=
  if bo = 0b00#2 then .bit else if bo = 0b01#2 then .be else if bo = 0b10#2 then .le else .ne

/-- CODEC class (R62): `D` at bit 5, `SG` at bit 4, `BO` at bits 3:2, bits 1:0 zero. -/
def decodeCodec (cmd : Byte) : Option Op :=
  let dt : Dtype := ⟨decodeSign (cmd.getLsbD 4), decodeByteOrder (cmd.extractLsb' 2 2)⟩
  if cmd.extractLsb' 0 2 = 0b00#2 then
    some (if cmd.getLsbD 5 then .dec dt else .enc dt)
  else none

/-- STREAM class (R63): `OP` at bits 5:3; `SG` at bit 2 and `BO` at bits 1:0 for READ and PEEK, zero for the others. -/
def decodeStream (cmd : Byte) : Option Op :=
  let dt : Dtype := ⟨decodeSign (cmd.getLsbD 2), decodeByteOrder (cmd.extractLsb' 0 2)⟩
  let op := cmd.extractLsb' 3 3
  if op = 0b000#3 then some (.read dt)
  else if op = 0b001#3 then some (.peek dt)
  else if cmd.extractLsb' 0 3 = 0b000#3 then
    if op = 0b010#3 then some .readlist
    else if op = 0b011#3 then some .peeklist
    else if op = 0b100#3 then some .unpack
    else if op = 0b101#3 then some .pack
    else none
  else none

/-- CONTROL class (R64): the sub-operation at bits 5:0. -/
def decodeControl (cmd : Byte) : Option Op :=
  let sub := cmd.extractLsb' 0 6
  if sub = 0b000000#6 then some .setpos
  else if sub = 0b000001#6 then some .setorigin
  else if sub = 0b000010#6 then some .bind
  else if sub = 0b000011#6 then some .getpos
  else none

/-- The command word (R61, R69): the class at bits 7:6; class `11` is reserved. -/
def decodeOp (cmd : Byte) : Option Op :=
  let cls := cmd.extractLsb' 6 2
  if cls = 0b00#2 then decodeCodec cmd
  else if cls = 0b01#2 then decodeStream cmd
  else if cls = 0b10#2 then decodeControl cmd
  else none

/-- A token code (R67): `TK[7:3]` zero, `SG` at bit 2, `BO` at bits 1:0. -/
def decodeToken (t : RawToken) : Option Token :=
  if t.tk.extractLsb' 3 5 = 0b00000#5 then
    some ⟨⟨decodeSign (t.tk.getLsbD 2), decodeByteOrder (t.tk.extractLsb' 0 2)⟩, t.len⟩
  else none

/-- The tokens of a read plan, all of them legal (R67). -/
def decodePlan : List RawToken → Option (List Token)
  | []      => some []
  | t :: ts =>
    match decodeToken t, decodePlan ts with
    | some t', some ts' => some (t' :: ts')
    | _, _ => none

/-- The entries of a pack plan, all their tokens legal (R67). -/
def decodePackPlan : List (RawToken × Int) → Option (List (Token × Int))
  | []           => some []
  | (t, v) :: ps =>
    match decodeToken t, decodePackPlan ps with
    | some t', some ps' => some ((t', v) :: ps')
    | _, _ => none

/-- The origin that the operand bit of SETORIGIN codes (R66: `0` = MSB0, `1` = LSB0). -/
def decodeOrigin (o : Bool) : Origin := if o then .lsb0 else .msb0

/-- A plan with an illegal token makes the whole command illegal (R67). -/
def planOrIllegal {α : Type} (cmd : Byte) (mk : α → Instr) : Option α → Except DecodeError Instr
  | some plan => .ok (mk plan)
  | none      => .error (.illegalCommand cmd)

/-- The operand record of a legal command word (R66). -/
def decodeRecord (cmd : Byte) : Op → Record → Except DecodeError Instr
  | .enc dt,    .cEnc len val => .ok (Instr.enc dt len val)
  | .dec dt,    .cDec fld     => .ok (Instr.dec dt fld)
  | .read dt,   .sTok len     => .ok (Instr.read dt len)
  | .peek dt,   .sTok len     => .ok (Instr.peek dt len)
  | .readlist,  .sPlan plan   => planOrIllegal cmd .readlist (decodePlan plan)
  | .peeklist,  .sPlan plan   => planOrIllegal cmd .peeklist (decodePlan plan)
  | .unpack,    .sPlan plan   => planOrIllegal cmd .unpack (decodePlan plan)
  | .pack,      .sPack plan   => planOrIllegal cmd .pack (decodePackPlan plan)
  | .setpos,    .kPos p       => .ok (.setpos p)
  | .setorigin, .kOrg o       => .ok (.setorigin (decodeOrigin o))
  | .bind,      .kBind seq    => .ok (.bind seq)
  | .getpos,    .kNone        => .ok .getpos
  | _, _ => .error (.recordFormat cmd)

/-- The decoder: total on every transaction; the command word is judged before its record (R69, R154). -/
def decode (t : Transaction) : Except DecodeError Instr :=
  match decodeOp t.cmd with
  | none    => .error (.illegalCommand t.cmd)
  | some op => decodeRecord t.cmd op t.operands

/-! ## Encoding -/

/-- The token code of a dtype, from the table of R70. -/
def Dtype.code (dt : Dtype) : Byte :=
  match dt.sg, dt.bo with
  | .unsigned, .bit => 0x00#8
  | .unsigned, .be  => 0x01#8
  | .unsigned, .le  => 0x02#8
  | .unsigned, .ne  => 0x03#8
  | .signed,   .bit => 0x04#8
  | .signed,   .be  => 0x05#8
  | .signed,   .le  => 0x06#8
  | .signed,   .ne  => 0x07#8

/-- A token on the port (R67, R70). -/
def encodeToken (t : Token) : RawToken := ⟨t.dt.code, t.len⟩

/-- The operand bit of SETORIGIN (R66). -/
def encodeOrigin : Origin → Bool
  | .msb0 => false
  | .lsb0 => true

/-- The command word of a command, from the opcode map (R71). -/
def Instr.cmd : Instr → Byte
  | .encUint _ _   => 0x00#8
  | .encUintbe _ _ => 0x04#8
  | .encUintle _ _ => 0x08#8
  | .encUintne _ _ => 0x0C#8
  | .encInt _ _    => 0x10#8
  | .encIntbe _ _  => 0x14#8
  | .encIntle _ _  => 0x18#8
  | .encIntne _ _  => 0x1C#8
  | .decUint _     => 0x20#8
  | .decUintbe _   => 0x24#8
  | .decUintle _   => 0x28#8
  | .decUintne _   => 0x2C#8
  | .decInt _      => 0x30#8
  | .decIntbe _    => 0x34#8
  | .decIntle _    => 0x38#8
  | .decIntne _    => 0x3C#8
  | .readUint _    => 0x40#8
  | .readUintbe _  => 0x41#8
  | .readUintle _  => 0x42#8
  | .readUintne _  => 0x43#8
  | .readInt _     => 0x44#8
  | .readIntbe _   => 0x45#8
  | .readIntle _   => 0x46#8
  | .readIntne _   => 0x47#8
  | .peekUint _    => 0x48#8
  | .peekUintbe _  => 0x49#8
  | .peekUintle _  => 0x4A#8
  | .peekUintne _  => 0x4B#8
  | .peekInt _     => 0x4C#8
  | .peekIntbe _   => 0x4D#8
  | .peekIntle _   => 0x4E#8
  | .peekIntne _   => 0x4F#8
  | .readlist _    => 0x50#8
  | .peeklist _    => 0x58#8
  | .unpack _      => 0x60#8
  | .pack _        => 0x68#8
  | .setpos _      => 0x80#8
  | .setorigin _   => 0x81#8
  | .bind _        => 0x82#8
  | .getpos        => 0x83#8

/-- The operand record of a command (R66). -/
def Instr.record : Instr → Record
  | .encUint len val | .encUintbe len val | .encUintle len val | .encUintne len val
  | .encInt len val | .encIntbe len val | .encIntle len val | .encIntne len val => .cEnc len val
  | .decUint fld | .decUintbe fld | .decUintle fld | .decUintne fld
  | .decInt fld | .decIntbe fld | .decIntle fld | .decIntne fld => .cDec fld
  | .readUint len | .readUintbe len | .readUintle len | .readUintne len
  | .readInt len | .readIntbe len | .readIntle len | .readIntne len => .sTok len
  | .peekUint len | .peekUintbe len | .peekUintle len | .peekUintne len
  | .peekInt len | .peekIntbe len | .peekIntle len | .peekIntne len => .sTok len
  | .readlist plan | .peeklist plan | .unpack plan => .sPlan (plan.map encodeToken)
  | .pack plan     => .sPack (plan.map fun e => (encodeToken e.1, e.2))
  | .setpos p      => .kPos p
  | .setorigin o   => .kOrg (encodeOrigin o)
  | .bind seq      => .kBind seq
  | .getpos        => .kNone

/-- The transaction of a command (R60). -/
def encode (i : Instr) : Transaction := ⟨i.cmd, i.record⟩

/-! ## A command word with an operand record of zeros -/

/-- The all-zero operand record of the format that a command word selects: no length, value 0, no bits, no entries,
position 0, origin bit 0 (log 8). An illegal word gets the empty record. -/
def zeroRecord : Option Op → Record
  | some (.enc _)   => .cEnc none 0
  | some (.dec _)   => .cDec []
  | some (.read _)  => .sTok none
  | some (.peek _)  => .sTok none
  | some .readlist  => .sPlan []
  | some .peeklist  => .sPlan []
  | some .unpack    => .sPlan []
  | some .pack      => .sPack []
  | some .setpos    => .kPos 0
  | some .setorigin => .kOrg false
  | some .bind      => .kBind []
  | some .getpos    => .kNone
  | none            => .kNone

/-- The transaction of a table word: the 8 bits of `CMD`, the operand record zero (log 8). -/
def tableTransaction (w : Nat) : Transaction :=
  let cmd : Byte := BitVec.ofNat 8 w
  ⟨cmd, zeroRecord (decodeOp cmd)⟩

/-- The command that the decoder reads from a table word. A command word has 8 bits (R60): a longer word is none. -/
def decodeTableWord (nbits w : Nat) : Option Instr :=
  if nbits = 8 ∧ w < 256 then
    match decode (tableTransaction w) with
    | .ok i    => some i
    | .error _ => none
  else none

end Sys2Proof
end

