-- ==== Sys2Proof/Machine/State.lean ====
section
/-! DEFINITION. Machine/State.lean: what the machine holds (R20 to R25), what a command can report (R29, R30, R150), the reset
state (R170), and the reasons why a step does not go on. -/

namespace Sys2Proof.Machine

/-! ## Results, errors, replies -/

/-- What the result port carries on success (R29). -/
inductive Result where
  | none
  | int   (v : Int)
  | field (f : Bits)
  | ints  (vs : List Int)
deriving DecidableEq, Repr

/-- Sub-codes of CreationError (R150, code 1). -/
inductive CreationCause where
  | missingLength
  | zeroLength
  | outOfRange
  | twoStretchy
deriving DecidableEq, Repr

/-- Sub-codes of ReadError (R150, code 4). -/
inductive ReadCause where
  | endOfStream
  | overrun
deriving DecidableEq, Repr

/-- Sub-codes of OriginHazard (R150, code 7). -/
inductive HazardCause where
  | switch
  | undefined
deriving DecidableEq, Repr

/-- The error kinds of R150 with their sub-codes. -/
inductive Error where
  /-- Code 1, CreationError. -/
  | creation (cause : CreationCause)
  /-- Code 2, InterpretError(ZeroLength). -/
  | interpretZeroLength
  /-- Code 3, ByteAlignError, with the offending length. -/
  | byteAlign (n : Nat)
  /-- Code 4, ReadError. -/
  | read (cause : ReadCause)
  /-- Code 5, ValueError-class(PosRange). -/
  | valuePosRange
  /-- Code 6, IllegalCommand, with the `CMD` value. -/
  | illegalCommand (cmd : Byte)
  /-- Code 7, OriginHazard. -/
  | originHazard (cause : HazardCause)
deriving DecidableEq, Repr

/-- What stands on the result and status ports after a transaction: a result, or an error and, for a failing plan entry,
its index from 0 (R29, R30, R151). -/
inductive Reply where
  | ok  (r : Result)
  | err (e : Error) (entry : Option Nat)
deriving DecidableEq, Repr

/-- How a pipeline of checks and computations ends: with a value, with an error (and the plan entry it belongs to), or refused
because a length is above `MAX_LEN` (R12, R155). -/
inductive Staged (α : Type) where
  | ok    (a : α)
  | raise (e : Error) (entry : Option Nat)
  | refuse
deriving DecidableEq, Repr

/-! ## The state -/

/-- The state of the machine. `seq`, `pos`, `origin` and `fault` are the ICP's state elements (R20 to R23), `params` its input
`HOSTORD` and its parameter `MAX_LEN` (R4, R5, R25). `port` and `reply` are what stands on the ports (R29, R30), which a model
whose step is a function of its state has to hold; the ICP itself keeps neither (R24). Logs 1, 2, 3, 4. -/
structure State where
  /-- `SEQ`, the bound sequence, first stored bit first (R20). Its length is `L`. -/
  seq    : Bits
  /-- The cursor (R21). -/
  pos    : Nat
  /-- `ORIGIN` (R22). -/
  origin : Origin
  /-- `FAULT`, the sticky hazard flag (R23). -/
  fault  : Bool
  /-- `HOSTORD` and `MAX_LEN` of the instance (R4, R5). -/
  params : Params
  /-- The command port: the transactions the host has issued and the ICP has not yet taken, oldest first (R29, R55). -/
  port   : List Transaction
  /-- The result and status ports: the reply to the last transaction taken (R29, R30). -/
  reply  : Option Reply
deriving DecidableEq, Repr

/-- The state of an instance right after reset (R170): `ORIGIN` = MSB0, `pos` = 0, `SEQ` empty, `FAULT` = 0, `HOSTORD` and `MAX_LEN`
as the instance has them; nothing on the ports (logs 1, 2). -/
def State.resetOf (prm : Params) : State where
  seq    := []
  pos    := 0
  origin := .msb0
  fault  := false
  params := prm
  port   := []
  reply  := none

/-- The machine right after reset: the instance of Config.lean (logs 3, 4). -/
def State.reset : State := State.resetOf Config.params

/-! ## Why a step does not go on -/

/-- Faults of the machine: none. The spec's errors are reported on the status port and the machine goes on (R152, R155,
R157), and OriginHazard is the sticky flag `FAULT` of the state, after which the machine still takes commands (R121, R145; log 5).
So no step ends in a fault, and the type has no value. -/
inductive Fault where
deriving DecidableEq, Repr

/-- Why a step gives a transaction no meaning. -/
inductive Refusal where
  /-- Raised by `exec` for an instruction whose meaning is not written yet. Safe. -/
  | notModelled (mnemonic : String)
  /-- Raised by ENC, DEC, READ, PEEK, the list commands, PACK and BIND where a length is above `MAX_LEN`: the spec's own
  refusal (R5, R155). Safe. -/
  | lengthAboveMaxLen
  /-- Raised by `step` for a transaction whose operand record is not of the format its command word selects, which the port
  cannot carry (R66; log 7). Safe. -/
  | recordFormat (cmd : Byte)
deriving DecidableEq, Repr

/-- The outcome of a step of this machine. -/
abbrev Outcome := Host.Outcome State Fault Refusal

end Sys2Proof.Machine
end

