-- ==== Sys2Proof/Machine/Flags.lean ====
section
/-! DEFINITION. Machine/Flags.lean: the one flag `FAULT` (R23, R28) and the status codes (R150). No arithmetic sets a flag. -/

namespace Sys2Proof.Machine

/-- Set the sticky hazard flag. Nothing but reset clears it (R23), so there is no operation that does. -/
def State.setFault (s : State) : State := { s with fault := true }

/-- The status code of an error (R150). -/
def Error.code : Error → Nat
  | .creation _          => 1
  | .interpretZeroLength => 2
  | .byteAlign _         => 3
  | .read _              => 4
  | .valuePosRange       => 5
  | .illegalCommand _    => 6
  | .originHazard _      => 7

/-- The status code of a reply: 0 for success (R30, R150). -/
def Reply.code : Reply → Nat
  | .ok _    => 0
  | .err e _ => e.code

end Sys2Proof.Machine
end

