-- ==== Sys2Proof/Machine/Operands.lean ====
section
/-! DEFINITION. Machine/Operands.lean: fields and integers (R7 to R10, R81 to R84, R101 to R103), the byte order (R47, R48), and the
encode and decode pipelines (R80, R100). -/

namespace Sys2Proof.Machine

/-! ## Fields and integers -/

/-- `msbfirst_n(u)` (R8): the `n` low bits of `u`, the bit of weight `2^(n-1)` first. -/
def msbfirst : Nat → Nat → Bits
  | 0,     _ => []
  | n + 1, u => u.testBit n :: msbfirst n u

/-- `uval(F)` (R8, R101): the unsigned value of a field, its first stored bit the most significant. -/
def uval : Bits → Nat
  | []     => 0
  | b :: F => b.toNat * 2 ^ F.length + uval F

/-- The first `m` bytes of a field, as fields of 8 bits (R10). -/
def bytesOf : Nat → Bits → List Bits
  | 0,     _ => []
  | m + 1, F => F.take 8 :: bytesOf m (F.drop 8)

/-- `byterev(F)` (R10): the whole bytes in reverse order, the bits inside each byte kept. It is used on whole bytes only (log 11). -/
def byterev (F : Bits) : Bits := (bytesOf (F.length / 8) F).reverse.flatten

/-- `zext_N(F)` (R9). -/
def zext (N : Nat) (F : Bits) : Bits := List.replicate (N - F.length) false ++ F

/-- `sext_N(F)` (R9): copies of the first stored bit in front. -/
def sext (N : Nat) (F : Bits) : Bits := List.replicate (N - F.length) (F.headD false) ++ F

/-- `InRange(SG, n, v)` (R81, R82). -/
def inRange (sg : Sign) (n : Nat) (v : Int) : Bool :=
  match sg with
  | .unsigned => decide (0 ≤ v ∧ v ≤ 2 ^ n - 1)
  | .signed   => decide (-2 ^ (n - 1) ≤ v ∧ v ≤ 2 ^ (n - 1) - 1)

/-- The two's-complement or unsigned value of a canonical field (R100 stage D5, R101, R102). -/
def fieldValue (sg : Sign) (G : Bits) : Int :=
  match sg with
  | .unsigned => uval G
  | .signed   => if G.headD false then (uval G : Int) - 2 ^ G.length else uval G

/-! ## Byte order -/

/-- `resolve(BO)` (R47): `ne` is `be` or `le` as `HOSTORD` says, read at the command. -/
def resolve (prm : Params) : ByteOrder → ByteOrder
  | .bit => .bit
  | .be  => .be
  | .le  => .le
  | .ne  =>
    match prm.hostOrd with
    | .big    => .be
    | .little => .le

/-- `canon(F, BO)` (R48, R84, R103): an `le` field with its bytes reversed; every other field as it is. -/
def canon (prm : Params) (bo : ByteOrder) (F : Bits) : Bits :=
  match resolve prm bo with
  | .le => byterev F
  | _   => F

/-- The whole-byte rule of `be`, `le` and `ne` (R50; stages E3 and D2): it is about the length alone. -/
def misaligned (bo : ByteOrder) (n : Nat) : Bool := decide (bo ≠ .bit ∧ n % 8 ≠ 0)

/-! ## The pipelines -/

/-- `EncCore(SG, BO, len, v)` (R80), stages E1 to E6. -/
def encCore (prm : Params) (dt : Dtype) (len : Option Nat) (v : Int) : Staged Bits :=
  match len with
  | none => .raise (.creation .missingLength) none
  | some n =>
    if !prm.within n then .refuse
    else if n = 0 then .raise (.creation .zeroLength) none
    else if misaligned dt.bo n then .raise (.byteAlign n) none
    else if !inRange dt.sg n v then .raise (.creation .outOfRange) none
    else .ok (canon prm dt.bo (msbfirst n (v % 2 ^ n).toNat))

/-- `DecCore(SG, BO, F)` (R100), stages D0 to D5. -/
def decCore (prm : Params) (dt : Dtype) (F : Bits) : Staged Int :=
  if !prm.within F.length then .refuse
  else if F.length = 0 then .raise .interpretZeroLength none
  else if misaligned dt.bo F.length then .raise (.byteAlign F.length) none
  else .ok (fieldValue dt.sg (canon prm dt.bo F))

end Sys2Proof.Machine
end

