-- ==== Sys2Proof/Machine/Ops.lean ====
section
/-! DEFINITION. Machine/Ops.lean: the named operations over the state: the ports (R29, R30), raising an error (R150 to R153), the
hazard gate (R121), reading `SEQ` (R44), one field (R120), a list of fields (R140), and building a list of fields (R144). -/

namespace Sys2Proof.Machine

/-! ## The ports -/

/-- Take the oldest transaction off the command port (R29, R55). -/
def State.takeTransaction (s : State) : Option (Transaction × State) :=
  match s.port with
  | []       => none
  | t :: ts => some (t, { s with port := ts })

/-- A successful command puts its result on the result port and code 0 on the status port (R29, R30). -/
def State.respond (s : State) (r : Result) : State := { s with reply := some (.ok r) }

/-! ## Raising an error

The ICP has no trap entry: an error saves nothing, changes no mode and goes nowhere (R157); it puts the code, the sub-code and
the index of the failing plan entry on the status port (R151), and no other state changes (R153). There is no return from it (R158). -/

/-- `raise <Error>(info)` (R11, R150 to R153). -/
def State.raiseError (s : State) (e : Error) (entry : Option Nat) : State := { s with reply := some (.err e entry) }

/-- End a command: with the state that its value gives, with its error and the state it started in, or refused (R12, R155). -/
def conclude {α : Type} (s : State) (r : Staged α) (k : α → State) : Outcome :=
  match r with
  | .ok a          => .next (k a)
  | .raise e entry => .next (s.raiseError e entry)
  | .refuse        => .refused .lengthAboveMaxLen

/-- What becomes of a transaction that the decoder rejects: an illegal command is an error (R65, R67); a record of another
format than the command word selects is refused (R66; log 7). -/
def rejectTransaction (e : DecodeError) (s : State) : Outcome :=
  match e with
  | .illegalCommand cmd => .next (s.raiseError (.illegalCommand cmd) none)
  | .recordFormat cmd   => .refused (.recordFormat cmd)

/-- The hazard gate of the commands that read `SEQ` (R121): with `FAULT` set they fail before any other stage. -/
def hazardGate (s : State) (k : Outcome) : Outcome :=
  if s.fault then .next (s.raiseError (.originHazard .undefined) none) else k

/-! ## Reading the bound sequence -/

/-- Where in `SEQ` the field of `n` bits at logical position `p` starts (R44). -/
def State.fieldStart (s : State) (p n : Nat) : Nat :=
  match s.origin with
  | .msb0 => p
  | .lsb0 => s.seq.length - p - n

/-- `MemRead(p, n)` (R44), in stored order. Callers keep `p + n ≤ L` (R120). -/
def State.memRead (s : State) (p n : Nat) : Bits := (s.seq.drop (s.fieldStart p n)).take n

/-- `ReadCore(SG, BO, len, p)` (R120), stages S1 to S3: the value and the number of bits consumed. -/
def readCore (s : State) (dt : Dtype) (len : Option Nat) (p : Nat) : Staged (Int × Nat) :=
  let n := len.getD (s.seq.length - p)
  if p = s.seq.length then .raise (.read .endOfStream) none
  else if s.seq.length < p + n then .raise (.read .overrun) none
  else
    match decCore s.params dt (s.memRead p n) with
    | .ok v       => .ok (v, n)
    | .raise e j  => .raise e j
    | .refuse     => .refuse

/-- The entries of a plan with resolved lengths, from position `q` on, `j` the index of the first: the values and the end
position, or the first failing entry's error with its index (R140). -/
def readEntries (s : State) : Nat → List Token → Nat → Staged (List Int × Nat)
  | _, [],      q => .ok ([], q)
  | j, t :: ts, q =>
    match readCore s t.dt t.len q with
    | .raise e _ => .raise e (some j)
    | .refuse    => .refuse
    | .ok (v, n) =>
      match readEntries s (j + 1) ts (q + n) with
      | .raise e k    => .raise e k
      | .refuse       => .refuse
      | .ok (vs, q')  => .ok (v :: vs, q')

/-- The indices of the stretchy tokens of a plan, `j` the index of its first token (R67, R140). -/
def stretchyIndices : Nat → List Token → List Nat
  | _, []      => []
  | j, t :: ts =>
    match t.len with
    | none   => j :: stretchyIndices (j + 1) ts
    | some _ => stretchyIndices (j + 1) ts

/-- Give the stretchy token of a plan its length (R140 stage P2). -/
def resolveStretchy (ns : Nat) (plan : List Token) : List Token :=
  plan.map fun t => { t with len := some (t.len.getD ns) }

/-- The entries of a plan whose lengths are all resolved: refused when their total is above `MAX_LEN` (R5, D12), whatever
becomes of the single entries; else entry by entry (R140). The place of the comparison, behind the plan-level checks and before
the first entry, is log 10. -/
def readResolved (s : State) (plan : List Token) (p : Nat) : Staged (List Int × Nat) :=
  if s.params.within (planTotal plan) then readEntries s 0 plan p else .refuse

/-- `ReadPlan(plan, p)` (R140): the plan-level checks P1 and P2, then the plan with resolved lengths. -/
def readPlan (s : State) (plan : List Token) (p : Nat) : Staged (List Int × Nat) :=
  match stretchyIndices 0 plan with
  | []          => readResolved s plan p
  | [j]         =>
    let ns : Int := ((s.seq.length : Int) - p) - planTotal plan
    if ns < 0 then .raise (.read .overrun) (some j)
    else readResolved s (resolveStretchy ns.toNat plan) p
  | _ :: j :: _ => .raise (.creation .twoStretchy) (some j)

/-! ## Building a list of fields -/

/-- The entries of a pack plan, `j` the index of the first: their fields one after the other, or the first failing entry's
error with its index (R144). -/
def packEntries (prm : Params) : Nat → List (Token × Int) → Staged Bits
  | _, []           => .ok []
  | j, (t, v) :: ps =>
    match encCore prm t.dt t.len v with
    | .raise e _ => .raise e (some j)
    | .refuse    => .refuse
    | .ok F      =>
      match packEntries prm (j + 1) ps with
      | .raise e k => .raise e k
      | .refuse    => .refuse
      | .ok G      => .ok (F ++ G)

/-- PACK's pipeline (R144): the concatenation, refused when it is longer than `MAX_LEN`. -/
def packCore (prm : Params) (plan : List (Token × Int)) : Staged Bits :=
  match packEntries prm 0 plan with
  | .raise e j => .raise e j
  | .refuse    => .refuse
  | .ok F      => if prm.within F.length then .ok F else .refuse

end Sys2Proof.Machine
end

