-- ==== Sys2Proof/Machine/ControlCommands.lean ====
section
/-! DEFINITION. Machine/ControlCommands.lean: SETPOS, SETORIGIN, BIND and GETPOS (R145 to R148). None is gated by `FAULT` (R121). -/

namespace Sys2Proof.Machine

/-- SETPOS (R146): a position in `0 .. L`, or ValueError-class(PosRange). It does not clear `FAULT`. -/
def execSetpos (p : Int) (s : State) : Outcome :=
  if 0 ≤ p ∧ p ≤ s.seq.length then .next ({ s with pos := p.toNat }.respond .none)
  else .next (s.raiseError .valuePosRange none)

/-- SETORIGIN (R145). A change while `pos ≠ 0` is performed, flagged and reported as OriginHazard(Switch), the only failing
command that changes state; writing the value already held does nothing. -/
def execSetorigin (o : Origin) (s : State) : Outcome :=
  if o ≠ s.origin ∧ s.pos ≠ 0 then
    .next (({ s with origin := o }.setFault).raiseError (.originHazard .switch) none)
  else .next ({ s with origin := o }.respond .none)

/-- BIND (R147): a new sequence, the cursor at 0; `ORIGIN` and `FAULT` unchanged. -/
def execBind (seq : Bits) (s : State) : Outcome :=
  if s.params.within seq.length then .next ({ s with seq := seq, pos := 0 }.respond .none)
  else .refused .lengthAboveMaxLen

/-- GETPOS (R148). -/
def execGetpos (s : State) : Outcome := .next (s.respond (.int s.pos))

end Sys2Proof.Machine
end

