-- ==== Sys2Proof/Machine/DecCommands.lean ====
section
/-! DEFINITION. Machine/DecCommands.lean: the eight DEC commands (R100, R104 to R111). They read no state but `HOSTORD` and `MAX_LEN` and write none. -/

namespace Sys2Proof.Machine

/-- Interpret the operand field and return its value (R100). -/
def decCommand (dt : Dtype) (fld : Bits) (s : State) : Outcome :=
  conclude s (decCore s.params dt fld) fun v => s.respond (.int v)

/-- DEC.uint (R104). -/
def execDecUint (fld : Bits) (s : State) : Outcome :=
  decCommand ⟨.unsigned, .bit⟩ fld s

/-- DEC.uintbe (R105). -/
def execDecUintbe (fld : Bits) (s : State) : Outcome :=
  decCommand ⟨.unsigned, .be⟩ fld s

/-- DEC.uintle (R106). -/
def execDecUintle (fld : Bits) (s : State) : Outcome :=
  decCommand ⟨.unsigned, .le⟩ fld s

/-- DEC.uintne (R107). -/
def execDecUintne (fld : Bits) (s : State) : Outcome :=
  decCommand ⟨.unsigned, .ne⟩ fld s

/-- DEC.int (R108). -/
def execDecInt (fld : Bits) (s : State) : Outcome :=
  decCommand ⟨.signed, .bit⟩ fld s

/-- DEC.intbe (R109). -/
def execDecIntbe (fld : Bits) (s : State) : Outcome :=
  decCommand ⟨.signed, .be⟩ fld s

/-- DEC.intle (R110). -/
def execDecIntle (fld : Bits) (s : State) : Outcome :=
  decCommand ⟨.signed, .le⟩ fld s

/-- DEC.intne (R111). -/
def execDecIntne (fld : Bits) (s : State) : Outcome :=
  decCommand ⟨.signed, .ne⟩ fld s

end Sys2Proof.Machine
end

