-- ==== Sys2Proof/Machine/EncCommands.lean ====
section
/-! DEFINITION. Machine/EncCommands.lean: the eight ENC commands (R80, R85 to R92). They read no state but `HOSTORD` and `MAX_LEN` and write none. -/

namespace Sys2Proof.Machine

/-- Build one field from a value and return it (R80). -/
def encCommand (dt : Dtype) (len : Option Nat) (val : Int) (s : State) : Outcome :=
  conclude s (encCore s.params dt len val) fun F => s.respond (.field F)

/-- ENC.uint (R85). -/
def execEncUint (len : Option Nat) (val : Int) (s : State) : Outcome :=
  encCommand ⟨.unsigned, .bit⟩ len val s

/-- ENC.uintbe (R86). -/
def execEncUintbe (len : Option Nat) (val : Int) (s : State) : Outcome :=
  encCommand ⟨.unsigned, .be⟩ len val s

/-- ENC.uintle (R87). -/
def execEncUintle (len : Option Nat) (val : Int) (s : State) : Outcome :=
  encCommand ⟨.unsigned, .le⟩ len val s

/-- ENC.uintne (R88). -/
def execEncUintne (len : Option Nat) (val : Int) (s : State) : Outcome :=
  encCommand ⟨.unsigned, .ne⟩ len val s

/-- ENC.int (R89). -/
def execEncInt (len : Option Nat) (val : Int) (s : State) : Outcome :=
  encCommand ⟨.signed, .bit⟩ len val s

/-- ENC.intbe (R90). -/
def execEncIntbe (len : Option Nat) (val : Int) (s : State) : Outcome :=
  encCommand ⟨.signed, .be⟩ len val s

/-- ENC.intle (R91). -/
def execEncIntle (len : Option Nat) (val : Int) (s : State) : Outcome :=
  encCommand ⟨.signed, .le⟩ len val s

/-- ENC.intne (R92). -/
def execEncIntne (len : Option Nat) (val : Int) (s : State) : Outcome :=
  encCommand ⟨.signed, .ne⟩ len val s

end Sys2Proof.Machine
end

