-- ==== Sys2Proof/Machine/PeekCommands.lean ====
section
/-! DEFINITION. Machine/PeekCommands.lean: the eight PEEK commands (R131 to R139). -/

namespace Sys2Proof.Machine

/-- PEEK (R131): READ without the cursor write. -/
def peekCommand (dt : Dtype) (len : Option Nat) (s : State) : Outcome :=
  hazardGate s (conclude s (readCore s dt len s.pos) fun r => s.respond (.int r.1))

/-- PEEK.uint (R132). -/
def execPeekUint (len : Option Nat) (s : State) : Outcome :=
  peekCommand ⟨.unsigned, .bit⟩ len s

/-- PEEK.uintbe (R133). -/
def execPeekUintbe (len : Option Nat) (s : State) : Outcome :=
  peekCommand ⟨.unsigned, .be⟩ len s

/-- PEEK.uintle (R134). -/
def execPeekUintle (len : Option Nat) (s : State) : Outcome :=
  peekCommand ⟨.unsigned, .le⟩ len s

/-- PEEK.uintne (R135). -/
def execPeekUintne (len : Option Nat) (s : State) : Outcome :=
  peekCommand ⟨.unsigned, .ne⟩ len s

/-- PEEK.int (R136). -/
def execPeekInt (len : Option Nat) (s : State) : Outcome :=
  peekCommand ⟨.signed, .bit⟩ len s

/-- PEEK.intbe (R137). -/
def execPeekIntbe (len : Option Nat) (s : State) : Outcome :=
  peekCommand ⟨.signed, .be⟩ len s

/-- PEEK.intle (R138). -/
def execPeekIntle (len : Option Nat) (s : State) : Outcome :=
  peekCommand ⟨.signed, .le⟩ len s

/-- PEEK.intne (R139). -/
def execPeekIntne (len : Option Nat) (s : State) : Outcome :=
  peekCommand ⟨.signed, .ne⟩ len s

end Sys2Proof.Machine
end

