-- ==== Sys2Proof/Machine/PlanCommands.lean ====
section
/-! DEFINITION. Machine/PlanCommands.lean: READLIST, PEEKLIST, UNPACK and PACK (R140 to R144), all-or-nothing. -/

namespace Sys2Proof.Machine

/-- READLIST (R141): the list at the cursor, which moves to the plan's end position on success only. -/
def execReadlist (plan : List Token) (s : State) : Outcome :=
  hazardGate s (conclude s (readPlan s plan s.pos) fun r => { s with pos := r.2 }.respond (.ints r.1))

/-- PEEKLIST (R142): the list at the cursor, `pos` unchanged. -/
def execPeeklist (plan : List Token) (s : State) : Outcome :=
  hazardGate s (conclude s (readPlan s plan s.pos) fun r => s.respond (.ints r.1))

/-- UNPACK (R143): the list at logical position 0, whatever `pos` is, which stays unchanged. -/
def execUnpack (plan : List Token) (s : State) : Outcome :=
  hazardGate s (conclude s (readPlan s plan 0) fun r => s.respond (.ints r.1))

/-- PACK (R144): the concatenation of the entries' fields; not gated by `FAULT`, and it does not bind its result. -/
def execPack (plan : List (Token × Int)) (s : State) : Outcome :=
  conclude s (packCore s.params plan) fun F => s.respond (.field F)

end Sys2Proof.Machine
end

