-- ==== Sys2Proof/Machine/ReadCommands.lean ====
section
/-! DEFINITION. Machine/ReadCommands.lean: the eight READ commands (R122 to R130). -/

namespace Sys2Proof.Machine

/-- READ (R122): one field at the cursor, which advances by the bits consumed; `pos` is unchanged on any error. -/
def readCommand (dt : Dtype) (len : Option Nat) (s : State) : Outcome :=
  hazardGate s (conclude s (readCore s dt len s.pos) fun r => { s with pos := s.pos + r.2 }.respond (.int r.1))

/-- READ.uint (R123). -/
def execReadUint (len : Option Nat) (s : State) : Outcome :=
  readCommand ⟨.unsigned, .bit⟩ len s

/-- READ.uintbe (R124). -/
def execReadUintbe (len : Option Nat) (s : State) : Outcome :=
  readCommand ⟨.unsigned, .be⟩ len s

/-- READ.uintle (R125). -/
def execReadUintle (len : Option Nat) (s : State) : Outcome :=
  readCommand ⟨.unsigned, .le⟩ len s

/-- READ.uintne (R126). -/
def execReadUintne (len : Option Nat) (s : State) : Outcome :=
  readCommand ⟨.unsigned, .ne⟩ len s

/-- READ.int (R127). -/
def execReadInt (len : Option Nat) (s : State) : Outcome :=
  readCommand ⟨.signed, .bit⟩ len s

/-- READ.intbe (R128). -/
def execReadIntbe (len : Option Nat) (s : State) : Outcome :=
  readCommand ⟨.signed, .be⟩ len s

/-- READ.intle (R129). -/
def execReadIntle (len : Option Nat) (s : State) : Outcome :=
  readCommand ⟨.signed, .le⟩ len s

/-- READ.intne (R130). -/
def execReadIntne (len : Option Nat) (s : State) : Outcome :=
  readCommand ⟨.signed, .ne⟩ len s

end Sys2Proof.Machine
end

