-- ==== Sys2Proof/Machine/Dispatch.lean ====
section
/-! DEFINITION. Machine/Dispatch.lean: one arm per command of the opcode map (R71). -/

namespace Sys2Proof.Machine

def exec (i : Instr) (s : State) : Host.Outcome State Fault Refusal :=
  match i with
  | .encUint len val => Sys2Proof.Machine.execEncUint len val s
  | .encUintbe len val => Sys2Proof.Machine.execEncUintbe len val s
  | .encUintle len val => Sys2Proof.Machine.execEncUintle len val s
  | .encUintne len val => Sys2Proof.Machine.execEncUintne len val s
  | .encInt len val => Sys2Proof.Machine.execEncInt len val s
  | .encIntbe len val => Sys2Proof.Machine.execEncIntbe len val s
  | .encIntle len val => Sys2Proof.Machine.execEncIntle len val s
  | .encIntne len val => Sys2Proof.Machine.execEncIntne len val s
  | .decUint fld => Sys2Proof.Machine.execDecUint fld s
  | .decUintbe fld => Sys2Proof.Machine.execDecUintbe fld s
  | .decUintle fld => Sys2Proof.Machine.execDecUintle fld s
  | .decUintne fld => Sys2Proof.Machine.execDecUintne fld s
  | .decInt fld => Sys2Proof.Machine.execDecInt fld s
  | .decIntbe fld => Sys2Proof.Machine.execDecIntbe fld s
  | .decIntle fld => Sys2Proof.Machine.execDecIntle fld s
  | .decIntne fld => Sys2Proof.Machine.execDecIntne fld s
  | .readUint len => Sys2Proof.Machine.execReadUint len s
  | .readUintbe len => Sys2Proof.Machine.execReadUintbe len s
  | .readUintle len => Sys2Proof.Machine.execReadUintle len s
  | .readUintne len => Sys2Proof.Machine.execReadUintne len s
  | .readInt len => Sys2Proof.Machine.execReadInt len s
  | .readIntbe len => Sys2Proof.Machine.execReadIntbe len s
  | .readIntle len => Sys2Proof.Machine.execReadIntle len s
  | .readIntne len => Sys2Proof.Machine.execReadIntne len s
  | .peekUint len => Sys2Proof.Machine.execPeekUint len s
  | .peekUintbe len => Sys2Proof.Machine.execPeekUintbe len s
  | .peekUintle len => Sys2Proof.Machine.execPeekUintle len s
  | .peekUintne len => Sys2Proof.Machine.execPeekUintne len s
  | .peekInt len => Sys2Proof.Machine.execPeekInt len s
  | .peekIntbe len => Sys2Proof.Machine.execPeekIntbe len s
  | .peekIntle len => Sys2Proof.Machine.execPeekIntle len s
  | .peekIntne len => Sys2Proof.Machine.execPeekIntne len s
  | .readlist plan => Sys2Proof.Machine.execReadlist plan s
  | .peeklist plan => Sys2Proof.Machine.execPeeklist plan s
  | .unpack plan => Sys2Proof.Machine.execUnpack plan s
  | .pack plan => Sys2Proof.Machine.execPack plan s
  | .setpos p => Sys2Proof.Machine.execSetpos p s
  | .setorigin o => Sys2Proof.Machine.execSetorigin o s
  | .bind seq => Sys2Proof.Machine.execBind seq s
  | .getpos => Sys2Proof.Machine.execGetpos s

end Sys2Proof.Machine
end

