-- ==== Sys2Proof/Machine/Step.lean ====
section
/-! DEFINITION. Machine/Step.lean: one step takes the next transaction off the command port and runs it whole (R27, R55, R176). -/

namespace Sys2Proof.Machine

/-- One step. With nothing on the command port nothing happens (R156; log 6). -/
def step (s : State) : Host.Outcome State Fault Refusal :=
  match s.takeTransaction with
  | none => .next s
  | some (t, s') =>
    match decode t with
    | .ok i    => exec i s'
    | .error e => rejectTransaction e s'

/-- The state with the command word `w` and the all-zero operand record put in front of the command port, so that the very next
step takes it (logs 1, 8). -/
def State.withFetchWord (s : State) (_nbits w : Nat) : State :=
  { s with port := tableTransaction w :: s.port }

end Sys2Proof.Machine
end

