-- ==== Sys2Proof/Machine/Assembler.lean ====
section
/-! DEFINITION. Machine/Assembler.lean: the text of commands (R73, R74, R75) and of field literals (R13), as a transcriber outside the
machine reads it. Text is a list of characters. What lies outside this text is refused by name (R66, R73; log 15). -/

namespace Sys2Proof.Machine

/-- A text. -/
abbrev Text := List Char

/-- Why a line is not transcribed. -/
inductive AsmError where
  /-- The line's first word is no mnemonic of R74 or R75, or its dtype is none of R70. -/
  | unknownCommand
  /-- A number, a position, an origin or a field literal is not of the form R13, R74 give it. -/
  | badOperand
  /-- A token is not `name[:]length[=value]` over the eight names of R70 (R73). -/
  | badToken
  /-- A literal value inside a read plan, which the port cannot carry (R66, D25). -/
  | literalInReadPlan
  /-- An entry of a pack plan without a value (R66, R74). -/
  | valueMissing
deriving DecidableEq, Repr

/-! ## Names -/

/-- The name of a dtype (R70). -/
def dtypeName (dt : Dtype) : Text :=
  (match dt.sg with
    | .unsigned => ['u', 'i', 'n', 't']
    | .signed   => ['i', 'n', 't']) ++
  (match dt.bo with
    | .bit => []
    | .be  => ['b', 'e']
    | .le  => ['l', 'e']
    | .ne  => ['n', 'e'])

/-- The eight dtypes (R70). -/
def allDtypes : List Dtype :=
  [⟨.unsigned, .bit⟩, ⟨.unsigned, .be⟩, ⟨.unsigned, .le⟩, ⟨.unsigned, .ne⟩,
   ⟨.signed, .bit⟩, ⟨.signed, .be⟩, ⟨.signed, .le⟩, ⟨.signed, .ne⟩]

/-- The dtype of a name (R70). -/
def dtypeOfName (w : Text) : Option Dtype := allDtypes.find? fun dt => dtypeName dt == w

/-! ## Numbers -/

/-- The value of a decimal digit. -/
def digitVal (c : Char) : Nat := c.toNat - 48

/-- Read decimal digits on from the value `acc`; the rest starts at the first character that is none. -/
def readDigits : Nat → Text → Nat × Text
  | acc, []      => (acc, [])
  | acc, c :: cs => if c.isDigit then readDigits (10 * acc + digitVal c) cs else (acc, c :: cs)

/-- A natural number of one digit or more, and the rest. -/
def readNat : Text → Option (Nat × Text)
  | []      => none
  | c :: cs => if c.isDigit then some (readDigits 0 (c :: cs)) else none

/-- An integer: an optional minus sign and a natural number, and the rest. -/
def readInt : Text → Option (Int × Text)
  | '-' :: cs => (readNat cs).map fun r => (-(r.1 : Int), r.2)
  | cs        => (readNat cs).map fun r => ((r.1 : Int), r.2)

/-- A text that is one natural number. -/
def parseNat (w : Text) : Option Nat :=
  match readNat w with
  | some (n, []) => some n
  | _            => none

/-- A text that is one integer. -/
def parseInt (w : Text) : Option Int :=
  match readInt w with
  | some (v, []) => some v
  | _            => none

/-! ## Tokens (R73) -/

/-- The `[=value]` end of a token. -/
def parseValue : Text → Option (Option Int)
  | []        => some none
  | '=' :: cs => (parseInt cs).map some
  | _         => none

/-- The `[:]length[=value]` end of a token; the length may be absent. -/
def parseLenValue (cs : Text) : Option (Option Nat × Option Int) :=
  match cs with
  | ':' :: ds =>
    match readNat ds with
    | some (n, rest) => (parseValue rest).map fun v => (some n, v)
    | none           => none
  | ds =>
    match readNat ds with
    | some (n, rest) => (parseValue rest).map fun v => (some n, v)
    | none           => (parseValue ds).map fun v => (none, v)

/-- A token `name[:]length[=value]` (R73). -/
def parseToken (w : Text) : Option (Token × Option Int) :=
  match dtypeOfName (w.takeWhile Char.isLower), parseLenValue (w.dropWhile Char.isLower) with
  | some dt, some (len, v) => some (⟨dt, len⟩, v)
  | _, _                   => none

/-- The decimal digits of a number, the least significant last; `fuel` bounds their count. -/
def spellDigits : Nat → Nat → Text
  | 0,        _ => []
  | fuel + 1, n => if n < 10 then [Char.ofNat (48 + n)] else spellDigits fuel (n / 10) ++ [Char.ofNat (48 + n % 10)]

/-- A natural number in decimal. -/
def spellNat (n : Nat) : Text := spellDigits (n + 1) n

/-- An integer in decimal. -/
def spellInt (v : Int) : Text := if v < 0 then '-' :: spellNat v.natAbs else spellNat v.natAbs

/-- The spelling of a token with or without the colon, and of its value (R73). -/
def spellToken (colon : Bool) (t : Token) (v : Option Int) : Text :=
  dtypeName t.dt ++
  (match t.len with
    | none   => []
    | some n => (if colon then [':'] else []) ++ spellNat n) ++
  (match v with
    | none   => []
    | some x => '=' :: spellInt x)

/-! ## Field literals (R13) -/

/-- The value of a hexadecimal digit. -/
def hexVal (c : Char) : Option Nat :=
  if c.isDigit then some (c.toNat - 48)
  else if 65 ≤ c.toNat ∧ c.toNat ≤ 70 then some (c.toNat - 55)
  else if 97 ≤ c.toNat ∧ c.toNat ≤ 102 then some (c.toNat - 87)
  else none

/-- The digits of a `0x` literal: four bits each, the most significant first (R13). -/
def hexBits : Text → Option Bits
  | []      => some []
  | c :: cs =>
    match hexVal c, hexBits cs with
    | some d, some F => some (msbfirst 4 d ++ F)
    | _, _           => none

/-- The digits of a `0b` literal: the bits in the order written (R13). -/
def binBits : Text → Option Bits
  | []      => some []
  | c :: cs =>
    match binBits cs with
    | some F => if c = '0' then some (false :: F) else if c = '1' then some (true :: F) else none
    | none   => none

/-- A field literal: `0x` and `0b` with one digit or more (R13), `[]` for the empty field (R7). -/
def parseField : Text → Option Bits
  | ['[', ']']            => some []
  | '0' :: 'x' :: c :: cs => hexBits (c :: cs)
  | '0' :: 'b' :: c :: cs => binBits (c :: cs)
  | _                     => none

/-! ## Lines (R74, R75) -/

/-- A text without its leading blanks. -/
def dropBlanks (w : Text) : Text := w.dropWhile (· == ' ')

/-- A text without its leading and trailing blanks. -/
def trim (w : Text) : Text := (dropBlanks (dropBlanks w).reverse).reverse

/-- The parts of a text between its commas. -/
def splitCommas : Text → List Text
  | []      => [[]]
  | c :: cs =>
    match splitCommas cs with
    | []      => [[c]]
    | w :: ws => if c = ',' then [] :: w :: ws else (c :: w) :: ws

/-- A comma-separated list, each part trimmed; a blank text is the empty list (R73). -/
def parts (w : Text) : List Text := if trim w = [] then [] else (splitCommas w).map trim

/-- A present or absent length operand: a blank text is absent (R74). -/
def parseLen (w : Text) : Except AsmError (Option Nat) :=
  if w = [] then .ok none
  else match parseNat w with
    | some n => .ok (some n)
    | none   => .error .badOperand

/-- A token of a read plan: it carries no value (R66, D25). -/
def parseReadToken (w : Text) : Except AsmError Token :=
  match parseToken w with
  | some (t, none)   => .ok t
  | some (_, some _) => .error .literalInReadPlan
  | none             => .error .badToken

/-- An entry of a pack plan: it carries a value (R66, R74). -/
def parsePackEntry (w : Text) : Except AsmError (Token × Int) :=
  match parseToken w with
  | some (t, some v) => .ok (t, v)
  | some (_, none)   => .error .valueMissing
  | none             => .error .badToken

/-- Every part of a list, or the first part's error. -/
def parseAll {α : Type} (f : Text → Except AsmError α) : List Text → Except AsmError (List α)
  | []      => .ok []
  | w :: ws =>
    match f w with
    | .error e => .error e
    | .ok a    =>
      match parseAll f ws with
      | .error e => .error e
      | .ok as   => .ok (a :: as)

/-- The mnemonics that a dtype follows after a dot (R74), and their operands. -/
def assembleTyped (cls : Text) (dt : Dtype) (ops : Text) : Except AsmError Instr :=
  if cls = ['E', 'N', 'C'] then
    match (splitCommas ops).map trim with
    | [n, v] =>
      match parseLen n, parseInt v with
      | .ok len, some x => .ok (Instr.enc dt len x)
      | _, _            => .error .badOperand
    | _ => .error .badOperand
  else if cls = ['D', 'E', 'C'] then
    match parseField (trim ops) with
    | some F => .ok (Instr.dec dt F)
    | none   => .error .badOperand
  else if cls = ['R', 'E', 'A', 'D'] then (parseLen (trim ops)).map (Instr.read dt)
  else if cls = ['P', 'E', 'E', 'K'] then (parseLen (trim ops)).map (Instr.peek dt)
  else .error .unknownCommand

/-- A pseudo-command with a token operand (R75): `READ <tok>`, `PEEK <tok>`. -/
def assembleTok (mk : Dtype → Option Nat → Instr) (ops : Text) : Except AsmError Instr :=
  (parseReadToken (trim ops)).map fun t => mk t.dt t.len

/-- A command that takes no operand. -/
def noOperand (ops : Text) (i : Instr) : Except AsmError Instr :=
  if trim ops = [] then .ok i else .error .badOperand

/-- The operand of SETORIGIN (R74). -/
def assembleOrigin (ops : Text) : Except AsmError Instr :=
  if trim ops = ['m', 's', 'b', '0'] then .ok (.setorigin .msb0)
  else if trim ops = ['l', 's', 'b', '0'] then .ok (.setorigin .lsb0)
  else .error .badOperand

/-- The mnemonics without a dtype (R74), and the pseudo-commands (R75). -/
def assemblePlain (m ops : Text) : Except AsmError Instr :=
  if m = ['R', 'E', 'A', 'D', 'L', 'I', 'S', 'T'] then (parseAll parseReadToken (parts ops)).map .readlist
  else if m = ['P', 'E', 'E', 'K', 'L', 'I', 'S', 'T'] then (parseAll parseReadToken (parts ops)).map .peeklist
  else if m = ['U', 'N', 'P', 'A', 'C', 'K'] then (parseAll parseReadToken (parts ops)).map .unpack
  else if m = ['P', 'A', 'C', 'K'] then (parseAll parsePackEntry (parts ops)).map .pack
  else if m = ['S', 'E', 'T', 'P', 'O', 'S'] then
    match parseInt (trim ops) with
    | some p => .ok (.setpos p)
    | none   => .error .badOperand
  else if m = ['S', 'E', 'T', 'O', 'R', 'I', 'G', 'I', 'N'] then assembleOrigin ops
  else if m = ['B', 'I', 'N', 'D'] then
    match parseField (trim ops) with
    | some F => .ok (.bind F)
    | none   => .error .badOperand
  else if m = ['G', 'E', 'T', 'P', 'O', 'S'] then noOperand ops .getpos
  else if m = ['R', 'E', 'W', 'I', 'N', 'D'] then noOperand ops (.setpos 0)
  else if m = ['M', 'S', 'B', '0'] then noOperand ops (.setorigin .msb0)
  else if m = ['L', 'S', 'B', '0'] then noOperand ops (.setorigin .lsb0)
  else if m = ['R', 'E', 'A', 'D'] then assembleTok Instr.read ops
  else if m = ['P', 'E', 'E', 'K'] then assembleTok Instr.peek ops
  else .error .unknownCommand

/-- One command a line: a mnemonic, then its operands (R74, R75). -/
def assemble (line : Text) : Except AsmError Instr :=
  let w := trim line
  let m := w.takeWhile (· != ' ')
  let ops := w.dropWhile (· != ' ')
  match m.dropWhile (· != '.') with
  | [] => assemblePlain m ops
  | _ :: name =>
    match dtypeOfName name with
    | some dt => assembleTyped (m.takeWhile (· != '.')) dt ops
    | none    => .error .unknownCommand

end Sys2Proof.Machine
end

