-- ==== Sys2Proof/Machine/HostView.lean ====
section
/-! DEFINITION. Machine/HostView.lean: how a host gets a bit sequence out of a byte buffer (R41) and a field into bytes (R42). No command
calls these: BIND takes stored bits (R41). They say what the bits that a host binds are. -/

namespace Sys2Proof.Machine

/-- The bits of a buffer byte, the most significant first (R41: buffer bit `8j + t` is bit `t` of byte `j` counted from its most
significant bit; D23; log 16). -/
def byteBits (b : Byte) : Bits :=
  [b.getMsbD 0, b.getMsbD 1, b.getMsbD 2, b.getMsbD 3, b.getMsbD 4, b.getMsbD 5, b.getMsbD 6, b.getMsbD 7]

/-- The bits of a buffer in order (R41). -/
def bufferBits (buf : List Byte) : Bits := buf.flatMap byteBits

/-- A reference to a byte buffer, a bit offset into it, and a length in bits (R41). -/
structure View where
  buffer : List Byte
  offset : Nat
  length : Nat
deriving DecidableEq, Repr

/-- The view lies inside its buffer: `offset + length ≤ 8 * capacity(buffer)` (R41). -/
def viewValid (v : View) : Bool := decide (v.offset + v.length ≤ 8 * v.buffer.length)

/-- The stored bits of a view: stored bit `k` is bit `offset + k` of the buffer (R41). -/
def viewBits (v : View) : Bits := ((bufferBits v.buffer).drop v.offset).take v.length

/-- A field padded to whole bytes: zero bits at the end, up to the next byte boundary (R42). -/
def padToBytes (F : Bits) : Bits := F ++ List.replicate ((8 - F.length % 8) % 8) false

/-- A field as bytes of a host buffer (R42). -/
def toBytes (F : Bits) : List Byte :=
  (bytesOf ((padToBytes F).length / 8) (padToBytes F)).map fun B => BitVec.ofNat 8 (uval B)

end Sys2Proof.Machine
end

