-- ==== Sys2Proof/Safety.lean ====
section
/-! DEFINITION. Safety.lean: what holds at every command boundary (R21, R5), and what a run free of the one hazard is (R173, R155). -/

namespace Sys2Proof.Machine

/-- The canonical form of the memory `SEQ`. A list of bits has one form only; what is left to say is that its length is one the
instance supports (R5, R147). Log 12. -/
def Memory.wf (prm : Params) (m : Bits) : Bool := prm.within m.length

/-- The invariant at command boundaries: `0 ≤ pos ≤ L` (R21), and `L` within `MAX_LEN` (R5, R147). -/
structure State.Inv (s : State) : Prop where
  pos_le : s.pos ≤ s.seq.length
  mem_wf : Memory.wf s.params s.seq = true

/-- No origin switch has been flagged: the state from which a read of `SEQ` still has a meaning (R23, R155). -/
def State.Safe (s : State) : Prop := s.fault = false

/-- A command that switches the origin mid-stream, the one hazard of the block (R145, R173). -/
def hazardous (i : Instr) (s : State) : Prop :=
  ∃ o, i = .setorigin o ∧ o ≠ s.origin ∧ s.pos ≠ 0

end Sys2Proof.Machine
end

