-- ==== Sys2Proof/Certificates/Slice0/Obligations.lean ====
section
/-! DEFINITION. Certificates/Slice0/Obligations.lean: the statements about the model. Each docstring names the rule of spec/ that
its statement formalises. The words under `Sys2Proof.Spec` say in formulas over bit positions what the rules say, without the
functions that the machine is written with. The fields `port` and `reply`, through which a statement sees the command port and
the result and status ports, are the model's form of them (logs 1 and 2). -/

namespace Sys2Proof.Spec

open Sys2Proof.Machine

/-- A field of this byte order is stored least significant byte first: `le`, and `ne` on a little-endian host (R47, R48). -/
def littleEndian (prm : Params) (bo : ByteOrder) : Bool :=
  decide (bo = .le ∨ (bo = .ne ∧ prm.hostOrd = .little))

/-- The exponent of the weight of stored bit `i` of an `n`-bit field: most significant bit first; in little-endian order
the byte `i / 8` has the weight `2 ^ (8 * (i / 8))` and only the bits inside it go from the most significant (R8, R10, R46). -/
def weight (le : Bool) (n i : Nat) : Nat :=
  if le then 8 * (i / 8) + (7 - i % 8) else n - 1 - i

/-- The unsigned value of a field as the sum of the weights of its one bits (R101). -/
def unsignedValue (le : Bool) (F : Bits) : Nat :=
  ((List.range F.length).map fun i => if F[i]? = some true then 2 ^ weight le F.length i else 0).sum

/-- Where the sign bit of a field is stored: first, or first in the last stored byte (R102, R110). -/
def signIndex (le : Bool) (n : Nat) : Nat := if le then n - 8 else 0

/-- The value of a field of a dtype (R101, R102). -/
def value (prm : Params) (dt : Dtype) (F : Bits) : Int :=
  let le := littleEndian prm dt.bo
  if dt.sg = .signed ∧ F[signIndex le F.length]? = some true then
    (unsignedValue le F : Int) - 2 ^ F.length
  else unsignedValue le F

/-- The values an `n`-bit field of a signedness can hold (R81, R82). -/
abbrev InRange (sg : Sign) (n : Nat) (v : Int) : Prop :=
  (sg = .unsigned → 0 ≤ v ∧ v ≤ 2 ^ n - 1) ∧
  (sg = .signed → -2 ^ (n - 1) ≤ v ∧ v ≤ 2 ^ (n - 1) - 1)

/-- The whole-byte rule: `be`, `le` and `ne` need a length that is a multiple of 8 (R50). -/
abbrev WholeBytes (dt : Dtype) (n : Nat) : Prop := dt.bo ≠ .bit → n % 8 = 0

/-- The lengths that a dtype takes on an instance (R50, R51). -/
abbrev LengthOk (prm : Params) (dt : Dtype) (n : Nat) : Prop :=
  1 ≤ n ∧ WholeBytes dt n ∧ prm.within n = true

/-- `F` is the `n`-bit field of the value `v` in a dtype: every stored bit is the bit of `v mod 2^n` of its weight (R83, R84). -/
abbrev IsField (prm : Params) (dt : Dtype) (n : Nat) (v : Int) (F : Bits) : Prop :=
  F.length = n ∧
  ∀ i, i < n → F[i]? = some ((v % 2 ^ n).toNat.testBit (weight (littleEndian prm dt.bo) n i))

/-- The `n` stored bits that a read at logical position `p` sees (R44). -/
def storedField (s : State) (p n : Nat) : Bits :=
  let start := if s.origin = .msb0 then p else s.seq.length - p - n
  (List.range n).map fun i => s.seq.getD (start + i) false

/-- No token of the plan is stretchy (R67). -/
abbrev FixedPlan (plan : List Token) : Prop := ∀ t, t ∈ plan → t.len ≠ none

/-- The sum of the lengths of a plan, a stretchy token counting nothing (R140). -/
def planLength (plan : List Token) : Nat := (plan.map fun t => t.len.getD 0).sum

/-- The values of the entries of a fixed plan that starts at logical position `p`: entry `j` is the field after the
lengths of the entries before it (R140). -/
def planValues (s : State) (plan : List Token) (p : Nat) : List Int :=
  (List.range plan.length).map fun j =>
    match plan[j]? with
    | some t => value s.params t.dt (storedField s (p + planLength (plan.take j)) (t.len.getD 0))
    | none   => 0

/-- The READs of a plan's tokens issued one after the other, up to the first that fails: the values, the error of the one
that failed, and the state then (R149). -/
def readsInOrder : List Token → State → List Int × Option Error × State
  | [],      s => ([], none, s)
  | t :: ts, s =>
    match exec (Instr.read t.dt t.len) s with
    | .next u =>
      match u.reply with
      | some (.ok (.int v)) => (v :: (readsInOrder ts u).1, (readsInOrder ts u).2)
      | some (.err e _)     => ([], some e, u)
      | _                   => ([], none, u)
    | _ => ([], none, s)

/-- The command words that R65 reserves. -/
abbrev Reserved (cmd : Byte) : Prop :=
  (cmd.toNat < 0x40 ∧ cmd.toNat % 4 ≠ 0) ∨
  (0x50 ≤ cmd.toNat ∧ cmd.toNat < 0x70 ∧ cmd.toNat % 8 ≠ 0) ∨
  (0x70 ≤ cmd.toNat ∧ cmd.toNat < 0x80) ∨
  (0x84 ≤ cmd.toNat)

/-- The commands that read `SEQ` (R121): READ.*, PEEK.*, READLIST, PEEKLIST, UNPACK. -/
def ReadsSeq (i : Instr) : Prop :=
  (∃ dt len, i = Instr.read dt len) ∨ (∃ dt len, i = Instr.peek dt len) ∨
  (∃ plan, i = .readlist plan) ∨ (∃ plan, i = .peeklist plan) ∨ (∃ plan, i = .unpack plan)

/-- The commands of the ports alone (R40): ENC.*, DEC.*, PACK. -/
def PortsOnly (i : Instr) : Prop :=
  (∃ dt len v, i = Instr.enc dt len v) ∨ (∃ dt F, i = Instr.dec dt F) ∨ (∃ plan, i = .pack plan)

end Sys2Proof.Spec

open Sys2Proof Sys2Proof.Machine

/-! ## Reset, the step, decoding -/

/-- R170: what reset leaves, on every instance; `HOSTORD` is not changed by it. -/
def Obligations.ResetLeavesTheStatedValues : Prop :=
  ∀ prm : Params,
    (State.resetOf prm).origin = .msb0 ∧ (State.resetOf prm).pos = 0 ∧ (State.resetOf prm).seq = [] ∧
    (State.resetOf prm).fault = false ∧ (State.resetOf prm).params = prm

/-- Which instance `State.reset` is, the model's choice (logs 3 and 4): that of the spec's default `MAX_LEN` (R5), with a `HOSTORD`
nothing is known of (R4); the ports are empty (logs 1 and 2). -/
def Obligations.ResetInstanceHasTheDefaultLimit : Prop :=
  State.reset = State.resetOf ⟨State.reset.params.hostOrd, none⟩ ∧ State.reset.port = [] ∧ State.reset.reply = none

/-- R21, R5: the invariant holds after reset, and no hazard is flagged. -/
def Obligations.ResetMeetsTheInvariant : Prop :=
  ∀ prm : Params, (State.resetOf prm).Inv ∧ (State.resetOf prm).Safe

/-- R55, R60, R176: a step takes the oldest transaction off the port and runs the command it decodes to, and nothing else. -/
def Obligations.StepRunsTheDecodedCommand : Prop :=
  ∀ (s : State) (t : Transaction) (ts : List Transaction) (i : Instr),
    s.port = t :: ts → decode t = .ok i → step s = exec i { s with port := ts }

/-- R156: with nothing on the command port nothing happens (the model's form of it is log 6). -/
def Obligations.IdleStepChangesNothing : Prop :=
  ∀ s : State, s.port = [] → step s = .next s

/-- R65, R154: a reserved word is answered with IllegalCommand, whatever its record and whatever `FAULT` is, and no state
changes. -/
def Obligations.ReservedWordsRaiseIllegalCommand : Prop :=
  ∀ (s : State) (t : Transaction) (ts : List Transaction),
    s.port = t :: ts → Spec.Reserved t.cmd →
    step s = .next { s with port := ts, reply := some (.err (.illegalCommand t.cmd) none) }

/-- R67: a token code with a bit of `TK[7:3]` set makes the whole command illegal. That no entry index stands beside this
IllegalCommand is the model's deduction (log 14). -/
def Obligations.IllegalTokenMakesTheCommandIllegal : Prop :=
  ∀ (s : State) (cmd : Byte) (ts : List Transaction) (tok : RawToken), 8 ≤ tok.tk.toNat →
    (∀ plan : List RawToken, tok ∈ plan → cmd = 0x50#8 ∨ cmd = 0x58#8 ∨ cmd = 0x60#8 →
      s.port = ⟨cmd, .sPlan plan⟩ :: ts →
      step s = .next { s with port := ts, reply := some (.err (.illegalCommand cmd) none) }) ∧
    (∀ (plan : List (RawToken × Int)) (v : Int), (tok, v) ∈ plan → cmd = 0x68#8 →
      s.port = ⟨cmd, .sPack plan⟩ :: ts →
      step s = .next { s with port := ts, reply := some (.err (.illegalCommand cmd) none) })

/-- R69: every command word is exactly one command of the map or illegal. -/
def Obligations.EveryWordIsOneCommandOrIllegal : Prop :=
  ∀ cmd : Byte,
    (¬ Spec.Reserved cmd → ∃ r i, decode ⟨cmd, r⟩ = .ok i) ∧
    (Spec.Reserved cmd → ∀ r, decode ⟨cmd, r⟩ = .error (.illegalCommand cmd)) ∧
    (∀ r i, decode ⟨cmd, r⟩ = .ok i → i.cmd = cmd)

/-- R66, R67, R70, R71: decoding an encoded command gives it back, all operands at every value. -/
def Obligations.DecodeOfEncodeIsTheCommand : Prop :=
  ∀ i : Instr, decode (encode i) = .ok i

/-- R69, R71: each command has one transaction. -/
def Obligations.DecodedTransactionIsTheEncoding : Prop :=
  ∀ (t : Transaction) (i : Instr), decode t = .ok i → encode i = t

/-- R71, R70: some words of the opcode map, written out. -/
def Obligations.WordsOfEveryFamilyDecode : Prop :=
  decode ⟨0b00011000#8, .cEnc (some 16) (-2)⟩ = .ok (.encIntle (some 16) (-2)) ∧
  decode ⟨0b00101100#8, .cDec [true]⟩ = .ok (.decUintne [true]) ∧
  decode ⟨0b01000101#8, .sTok (some 8)⟩ = .ok (.readIntbe (some 8)) ∧
  decode ⟨0b01001010#8, .sTok none⟩ = .ok (.peekUintle none) ∧
  decode ⟨0b01010000#8, .sPlan [⟨0b00000110#8, some 16⟩]⟩ = .ok (.readlist [⟨⟨.signed, .le⟩, some 16⟩]) ∧
  decode ⟨0b01101000#8, .sPack [(⟨0b00000011#8, some 8⟩, 7)]⟩ = .ok (.pack [(⟨⟨.unsigned, .ne⟩, some 8⟩, 7)]) ∧
  decode ⟨0b10000001#8, .kOrg true⟩ = .ok (.setorigin .lsb0) ∧
  decode ⟨0b10000011#8, .kNone⟩ = .ok .getpos

/-! ## ENC and DEC -/

/-- R80, R81, R82: the eight ENC commands run the stages E1 to E6 in this order. -/
def Obligations.EncRunsItsStagesInOrder : Prop :=
  ∀ (s : State) (dt : Dtype) (v : Int),
    exec (Instr.enc dt none v) s = .next { s with reply := some (.err (.creation .missingLength) none) } ∧
    ∀ n : Nat,
      (s.params.within n = false → exec (Instr.enc dt (some n) v) s = .refused .lengthAboveMaxLen) ∧
      (s.params.within n = true → n = 0 →
        exec (Instr.enc dt (some n) v) s = .next { s with reply := some (.err (.creation .zeroLength) none) }) ∧
      (s.params.within n = true → n ≠ 0 → ¬ Spec.WholeBytes dt n →
        exec (Instr.enc dt (some n) v) s = .next { s with reply := some (.err (.byteAlign n) none) }) ∧
      (Spec.LengthOk s.params dt n → ¬ Spec.InRange dt.sg n v →
        exec (Instr.enc dt (some n) v) s = .next { s with reply := some (.err (.creation .outOfRange) none) }) ∧
      (Spec.LengthOk s.params dt n → Spec.InRange dt.sg n v →
        ∃ F, Spec.IsField s.params dt n v F ∧
          exec (Instr.enc dt (some n) v) s = .next { s with reply := some (.ok (.field F)) })

/-- R100, R101, R102: the eight DEC commands run the stages D0 to D5 in this order. -/
def Obligations.DecRunsItsStagesInOrder : Prop :=
  ∀ (s : State) (dt : Dtype) (F : Bits),
    (s.params.within F.length = false → exec (Instr.dec dt F) s = .refused .lengthAboveMaxLen) ∧
    (s.params.within F.length = true → F.length = 0 →
      exec (Instr.dec dt F) s = .next { s with reply := some (.err .interpretZeroLength none) }) ∧
    (s.params.within F.length = true → F.length ≠ 0 → ¬ Spec.WholeBytes dt F.length →
      exec (Instr.dec dt F) s = .next { s with reply := some (.err (.byteAlign F.length) none) }) ∧
    (Spec.LengthOk s.params dt F.length →
      exec (Instr.dec dt F) s = .next { s with reply := some (.ok (.int (Spec.value s.params dt F))) })

/-- R101, R102: the value of an `n`-bit field lies in the range of its signedness. -/
def Obligations.DecodedValueIsInRange : Prop :=
  ∀ (s t : State) (dt : Dtype) (F : Bits) (v : Int),
    exec (Instr.dec dt F) s = .next t → t.reply = some (.ok (.int v)) →
    (dt.sg = .unsigned → 0 ≤ v ∧ v ≤ 2 ^ F.length - 1) ∧
    (dt.sg = .signed → -2 ^ (F.length - 1) ≤ v ∧ v ≤ 2 ^ (F.length - 1) - 1)

/-- R93: what ENC builds DEC gives back, and what DEC gives ENC builds again, on every instance and for every dtype. -/
def Obligations.EncodeAndDecodeAreInverse : Prop :=
  ∀ (s : State) (dt : Dtype),
    (∀ (n : Nat) (v : Int) (F : Bits),
      exec (Instr.enc dt (some n) v) s = .next { s with reply := some (.ok (.field F)) } →
      exec (Instr.dec dt F) s = .next { s with reply := some (.ok (.int v)) }) ∧
    (∀ (F : Bits) (v : Int),
      exec (Instr.dec dt F) s = .next { s with reply := some (.ok (.int v)) } →
      exec (Instr.enc dt (some F.length) v) s = .next { s with reply := some (.ok (.field F)) })

/-- R83, R91: the sign bit of a signed field is one exactly when the value is negative; it is the first stored bit, in
little-endian order the first stored bit of the last byte. -/
def Obligations.SignBitTellsNegativeValues : Prop :=
  ∀ (s t : State) (bo : ByteOrder) (n : Nat) (v : Int) (F : Bits),
    exec (Instr.enc ⟨.signed, bo⟩ (some n) v) s = .next t → t.reply = some (.ok (.field F)) →
    F[Spec.signIndex (Spec.littleEndian s.params bo) n]? = some (decide (v < 0))

/-- R47: every order but `ne` is itself and `ne` is the host's order; so an `ne` command is the `be` command on a big-endian
host and the `le` command on a little-endian one, whatever comes out of it. -/
def Obligations.NativeOrderIsTheHostsOrder : Prop :=
  ∀ (s : State) (sg : Sign) (len : Option Nat) (v : Int) (F : Bits),
    let bo : ByteOrder := if s.params.hostOrd = .big then .be else .le
    (∀ o : ByteOrder, resolve s.params o = if o = .ne then bo else o) ∧
    exec (Instr.enc ⟨sg, .ne⟩ len v) s = exec (Instr.enc ⟨sg, bo⟩ len v) s ∧
    exec (Instr.dec ⟨sg, .ne⟩ F) s = exec (Instr.dec ⟨sg, bo⟩ F) s ∧
    exec (Instr.read ⟨sg, .ne⟩ len) s = exec (Instr.read ⟨sg, bo⟩ len) s ∧
    exec (Instr.peek ⟨sg, .ne⟩ len) s = exec (Instr.peek ⟨sg, bo⟩ len) s

/-- R48, R87: on whole bytes the big-endian dtypes act as the bit-wise ones, and on one byte so do the little-endian ones. -/
def Obligations.ByteOrdersAgreeWhereTheyShould : Prop :=
  ∀ (s : State) (sg : Sign) (n : Nat) (v : Int) (F : Bits),
    (n % 8 = 0 → exec (Instr.enc ⟨sg, .be⟩ (some n) v) s = exec (Instr.enc ⟨sg, .bit⟩ (some n) v) s) ∧
    (F.length % 8 = 0 → exec (Instr.dec ⟨sg, .be⟩ F) s = exec (Instr.dec ⟨sg, .bit⟩ F) s) ∧
    exec (Instr.enc ⟨sg, .le⟩ (some 8) v) s = exec (Instr.enc ⟨sg, .bit⟩ (some 8) v) s ∧
    (F.length = 8 → exec (Instr.dec ⟨sg, .le⟩ F) s = exec (Instr.dec ⟨sg, .bit⟩ F) s)

/-- R10: `byterev` puts byte `m - 1 - j` at byte `j`, keeps the bits inside each, and is its own inverse. -/
def Obligations.ByterevReversesWholeBytes : Prop :=
  ∀ (m : Nat) (F : Bits), F.length = 8 * m →
    (byterev F).length = 8 * m ∧ byterev (byterev F) = F ∧
    ∀ j t, j < m → t < 8 → (byterev F)[8 * j + t]? = F[8 * (m - 1 - j) + t]?

/-- R9: zero extension keeps what DEC.uint gives, sign extension keeps what DEC.int gives. -/
def Obligations.ExtensionKeepsTheValue : Prop :=
  ∀ (s : State) (F : Bits) (N : Nat) (v : Int), F.length ≤ N → s.params.within N = true →
    (exec (.decUint F) s = .next { s with reply := some (.ok (.int v)) } →
      (zext N F).length = N ∧ exec (.decUint (zext N F)) s = .next { s with reply := some (.ok (.int v)) }) ∧
    (exec (.decInt F) s = .next { s with reply := some (.ok (.int v)) } →
      (sext N F).length = N ∧ exec (.decInt (sext N F)) s = .next { s with reply := some (.ok (.int v)) })

/-- R40, R112, R113: ENC, DEC and PACK depend on `HOSTORD` and `MAX_LEN` alone, not on `SEQ`, `pos`, `ORIGIN`, `FAULT` or any
earlier command. -/
def Obligations.CodecAndPackReadParametersOnly : Prop :=
  ∀ (s s' : State) (i : Instr), Spec.PortsOnly i → s'.params = s.params →
    (∀ t, exec i s = .next t → exec i s' = .next { s' with reply := t.reply }) ∧
    (∀ r, exec i s = .refused r → exec i s' = .refused r)

/-! ## Reading `SEQ` -/

/-- R44: the field that a read sees, bit by bit, in stored order in both origins. -/
def Obligations.MemReadTakesTheStoredRun : Prop :=
  ∀ (s : State) (p n : Nat), p + n ≤ s.seq.length →
    (s.memRead p n).length = n ∧
    ∀ i, i < n →
      (s.origin = .msb0 → (s.memRead p n)[i]? = s.seq[p + i]?) ∧
      (s.origin = .lsb0 → (s.memRead p n)[i]? = s.seq[s.seq.length - p - n + i]?)

/-- R43, R45: one logical bit, and adjacent runs of consecutive reads. -/
def Obligations.ConsecutiveReadsTakeAdjacentRuns : Prop :=
  ∀ s : State,
    (∀ i, i < s.seq.length →
      (s.origin = .msb0 → (s.memRead i 1)[0]? = s.seq[i]?) ∧
      (s.origin = .lsb0 → (s.memRead i 1)[0]? = s.seq[s.seq.length - 1 - i]?)) ∧
    (∀ p n₁ n₂, p + n₁ + n₂ ≤ s.seq.length →
      (s.origin = .msb0 → s.memRead p (n₁ + n₂) = s.memRead p n₁ ++ s.memRead (p + n₁) n₂) ∧
      (s.origin = .lsb0 → s.memRead p (n₁ + n₂) = s.memRead (p + n₁) n₂ ++ s.memRead p n₁))

/-- R121: with `FAULT` set every command that reads `SEQ` fails before anything else and changes no state; no other command
tests `FAULT`. That the OriginHazard of READLIST, PEEKLIST and UNPACK carries no entry index is the model's deduction (log 14). -/
def Obligations.HazardGateStopsReadsOfSeqOnly : Prop :=
  ∀ (s : State) (i : Instr),
    (Spec.ReadsSeq i → s.fault = true →
      exec i s = .next { s with reply := some (.err (.originHazard .undefined) none) }) ∧
    (¬ Spec.ReadsSeq i →
      (∀ t, exec i { s with fault := false } = .next t → exec i { s with fault := true } = .next { t with fault := true }) ∧
      (∀ r, exec i { s with fault := false } = .refused r → exec i { s with fault := true } = .refused r))

/-- R120, R122: the eight READ commands test `FAULT`, then run their stages in this order; a stretchy READ asks for the rest of
the sequence. A cursor above `L`, which R21 rules out, is not spoken of (log 9). -/
def Obligations.ReadRunsItsStagesInOrder : Prop :=
  ∀ (s : State) (dt : Dtype) (len : Option Nat),
    let n := len.getD (s.seq.length - s.pos)
    let fails (e : Error) := exec (Instr.read dt len) s = .next { s with reply := some (.err e none) }
    (s.fault = true → fails (.originHazard .undefined)) ∧
    (s.fault = false → s.pos ≤ s.seq.length →
      (s.pos = s.seq.length → fails (.read .endOfStream)) ∧
      (s.pos < s.seq.length → s.seq.length < s.pos + n → fails (.read .overrun)) ∧
      (s.pos < s.seq.length → s.pos + n ≤ s.seq.length → s.params.within n = false →
        exec (Instr.read dt len) s = .refused .lengthAboveMaxLen) ∧
      (s.pos < s.seq.length → s.pos + n ≤ s.seq.length → s.params.within n = true → n = 0 → fails .interpretZeroLength) ∧
      (s.pos < s.seq.length → s.pos + n ≤ s.seq.length → s.params.within n = true → n ≠ 0 → ¬ Spec.WholeBytes dt n →
        fails (.byteAlign n)) ∧
      (s.pos + n ≤ s.seq.length → Spec.LengthOk s.params dt n →
        exec (Instr.read dt len) s =
          .next { s with
            pos := s.pos + n, reply := some (.ok (.int (Spec.value s.params dt (Spec.storedField s s.pos n)))) }))

/-- R131: the eight PEEK commands test `FAULT` and run the stages of READ and leave `pos` as it was, on success and on failure. -/
def Obligations.PeekRunsItsStagesInOrder : Prop :=
  ∀ (s : State) (dt : Dtype) (len : Option Nat),
    let n := len.getD (s.seq.length - s.pos)
    let fails (e : Error) := exec (Instr.peek dt len) s = .next { s with reply := some (.err e none) }
    (s.fault = true → fails (.originHazard .undefined)) ∧
    (s.fault = false → s.pos ≤ s.seq.length →
      (s.pos = s.seq.length → fails (.read .endOfStream)) ∧
      (s.pos < s.seq.length → s.seq.length < s.pos + n → fails (.read .overrun)) ∧
      (s.pos < s.seq.length → s.pos + n ≤ s.seq.length → s.params.within n = false →
        exec (Instr.peek dt len) s = .refused .lengthAboveMaxLen) ∧
      (s.pos < s.seq.length → s.pos + n ≤ s.seq.length → s.params.within n = true → n = 0 → fails .interpretZeroLength) ∧
      (s.pos < s.seq.length → s.pos + n ≤ s.seq.length → s.params.within n = true → n ≠ 0 → ¬ Spec.WholeBytes dt n →
        fails (.byteAlign n)) ∧
      (s.pos + n ≤ s.seq.length → Spec.LengthOk s.params dt n →
        exec (Instr.peek dt len) s =
          .next { s with reply := some (.ok (.int (Spec.value s.params dt (Spec.storedField s s.pos n)))) }))

/-- R172: before any BIND, `SEQ` is empty, the cursor 0 and `FAULT` clear, in either origin. Every READ and PEEK then fails at the
end of the stream, and every command that succeeds or fails, but BIND, leaves it so. -/
def Obligations.ReadBeforeBindIsEndOfStream : Prop :=
  ∀ s : State, s.seq = [] → s.pos = 0 → s.fault = false →
    (∀ (dt : Dtype) (len : Option Nat),
      exec (Instr.read dt len) s = .next { s with reply := some (.err (.read .endOfStream) none) } ∧
      exec (Instr.peek dt len) s = .next { s with reply := some (.err (.read .endOfStream) none) }) ∧
    (∀ (i : Instr) (t : State), (∀ q, i ≠ .bind q) → exec i s = .next t →
      t.seq = [] ∧ t.pos = 0 ∧ t.fault = false)

/-! ## Plans -/

/-- R140, R141, R142, R143: a plan of fixed lengths that fits, its total within `MAX_LEN` (R5), is decoded entry by entry; READLIST
moves the cursor to its end, PEEKLIST and UNPACK leave it, UNPACK starts at logical position 0. -/
def Obligations.ListReadsDecodeEveryEntry : Prop :=
  ∀ (s : State) (plan : List Token), s.fault = false → Spec.FixedPlan plan →
    (∀ t, t ∈ plan → Spec.LengthOk s.params t.dt (t.len.getD 0)) →
    s.params.within (Spec.planLength plan) = true →
    (s.pos + Spec.planLength plan ≤ s.seq.length →
      exec (.readlist plan) s =
        .next { s with
          pos := s.pos + Spec.planLength plan, reply := some (.ok (.ints (Spec.planValues s plan s.pos))) } ∧
      exec (.peeklist plan) s = .next { s with reply := some (.ok (.ints (Spec.planValues s plan s.pos))) }) ∧
    (Spec.planLength plan ≤ s.seq.length →
      exec (.unpack plan) s = .next { s with reply := some (.ok (.ints (Spec.planValues s plan 0))) })

/-- R5, D12: a read plan whose total is above `MAX_LEN` is refused, whatever `SEQ`, the cursor and its single entries are. The
total is that of a plan whose lengths are resolved (log 10): no token is stretchy. -/
def Obligations.PlanTotalAboveTheLimitIsRefused : Prop :=
  ∀ (s : State) (plan : List Token), s.fault = false → Spec.FixedPlan plan →
    s.params.within (Spec.planLength plan) = false →
    exec (.readlist plan) s = .refused .lengthAboveMaxLen ∧
    exec (.peeklist plan) s = .refused .lengthAboveMaxLen ∧
    exec (.unpack plan) s = .refused .lengthAboveMaxLen

/-- R140 stage P2: the one stretchy entry of a plan, wherever it stands, takes what the fixed entries leave; where they leave less
than nothing the command fails with ReadError(Overrun) at that entry. That it does so, and is not refused (R5), where the fixed
lengths are above `MAX_LEN` is the model's choice: R154 puts P2 before the pipeline's own stages, and the total is compared
behind it (log 10). -/
def Obligations.StretchyEntryTakesWhatRemains : Prop :=
  ∀ (s : State) (a c : List Token) (dt : Dtype), s.fault = false → s.pos ≤ s.seq.length →
    Spec.FixedPlan a → Spec.FixedPlan c →
    let plan (len : Option Nat) : List Token := a ++ ⟨dt, len⟩ :: c
    let total := Spec.planLength a + Spec.planLength c
    let overrun : Option Reply := some (.err (.read .overrun) (some a.length))
    (s.pos + total ≤ s.seq.length →
      exec (.readlist (plan none)) s = exec (.readlist (plan (some (s.seq.length - s.pos - total)))) s ∧
      exec (.peeklist (plan none)) s = exec (.peeklist (plan (some (s.seq.length - s.pos - total)))) s) ∧
    (s.seq.length < s.pos + total →
      exec (.readlist (plan none)) s = .next { s with reply := overrun } ∧
      exec (.peeklist (plan none)) s = .next { s with reply := overrun }) ∧
    (total ≤ s.seq.length →
      exec (.unpack (plan none)) s = exec (.unpack (plan (some (s.seq.length - total)))) s) ∧
    (s.seq.length < total → exec (.unpack (plan none)) s = .next { s with reply := overrun })

/-- R140 stage P1: a second stretchy entry is CreationError(TwoStretchy), reported at the second one, before anything is read. That
it is so, and no refusal (R5), where the lengths that the plan names are above `MAX_LEN` is the model's choice: R154 puts P1
before the pipeline's own stages, and the total is compared behind it (log 10). -/
def Obligations.SecondStretchyEntryIsCreationError : Prop :=
  ∀ (s : State) (a b c : List Token) (dt dt' : Dtype), s.fault = false → Spec.FixedPlan a → Spec.FixedPlan b →
    let plan : List Token := a ++ ⟨dt, none⟩ :: (b ++ ⟨dt', none⟩ :: c)
    let failed : Outcome :=
      .next { s with reply := some (.err (.creation .twoStretchy) (some (a.length + 1 + b.length))) }
    exec (.readlist plan) s = failed ∧ exec (.peeklist plan) s = failed ∧ exec (.unpack plan) s = failed

/-- R149: READLIST of fixed tokens against the READs issued one after the other. When all succeed, the same values and the same
end position; when entry `j` fails, the READs give `j` values and move `pos`, and READLIST gives none, reports the same
error at index `j` and does not move, or is refused where the plan's total is above `MAX_LEN` (R5, log 10). -/
def Obligations.ReadlistComposesReads : Prop :=
  ∀ (s : State) (plan : List Token), s.Inv → s.fault = false → Spec.FixedPlan plan →
    let run := Spec.readsInOrder plan s
    (run.2.1 = none →
      run.1.length = plan.length ∧
      exec (.readlist plan) s = .next { s with pos := run.2.2.pos, reply := some (.ok (.ints run.1)) }) ∧
    (∀ e, run.2.1 = some e →
      run.1.length < plan.length ∧
      run.2.2.pos = s.pos + Spec.planLength (plan.take run.1.length) ∧
      (s.params.within (Spec.planLength plan) = true →
        exec (.readlist plan) s = .next { s with reply := some (.err e (some run.1.length)) }) ∧
      (s.params.within (Spec.planLength plan) = false → exec (.readlist plan) s = .refused .lengthAboveMaxLen))

/-- R142, R143: PEEKLIST answers what READLIST answers and UNPACK what READLIST at position 0 answers; neither changes state. They
are refused where it is. -/
def Obligations.PeeklistAndUnpackAnswerAsReadlist : Prop :=
  ∀ (s u : State) (plan : List Token) (r : Refusal),
    (exec (.readlist plan) s = .next u → exec (.peeklist plan) s = .next { s with reply := u.reply }) ∧
    (exec (.readlist plan) s = .refused r → exec (.peeklist plan) s = .refused r) ∧
    (exec (.readlist plan) { s with pos := 0 } = .next u → exec (.unpack plan) s = .next { s with reply := u.reply }) ∧
    (exec (.readlist plan) { s with pos := 0 } = .refused r → exec (.unpack plan) s = .refused r)

/-- R75: READLIST of one token is the one-element list of the READ, with the same end state, and PACK of one entry is the ENC. -/
def Obligations.OneEntryListsAreSingleCommands : Prop :=
  ∀ (s u : State) (t : Token),
    (∀ v, exec (Instr.read t.dt t.len) s = .next u → u.reply = some (.ok (.int v)) →
      exec (.readlist [t]) s = .next { u with reply := some (.ok (.ints [v])) }) ∧
    (∀ v F, exec (Instr.enc t.dt t.len v) s = .next u → u.reply = some (.ok (.field F)) →
      exec (.pack [(t, v)]) s = .next u)

/-- R144, R94: PACK returns the fields of its entries one after the other, and refuses a total above `MAX_LEN`. -/
def Obligations.PackConcatenatesItsFields : Prop :=
  ∀ (s : State) (plan : List (Token × Int)) (Fs : List Bits),
    List.Forall₂ (fun e F => ∃ n, e.1.len = some n ∧ Spec.LengthOk s.params e.1.dt n ∧
      Spec.InRange e.1.dt.sg n e.2 ∧ Spec.IsField s.params e.1.dt n e.2 F) plan Fs →
    (s.params.within Fs.flatten.length = true →
      exec (.pack plan) s = .next { s with reply := some (.ok (.field Fs.flatten)) }) ∧
    (s.params.within Fs.flatten.length = false → exec (.pack plan) s = .refused .lengthAboveMaxLen)

/-- R144, R80, R154: PACK reports the error of its first failing entry, at that entry's index, and returns nothing of the entries
before; where the first entry that does not succeed is refused, a length above `MAX_LEN` (R80 stage E1a), PACK is refused. -/
def Obligations.PackReportsTheFirstFailingEntry : Prop :=
  ∀ (s : State) (a c : List (Token × Int)) (t : Token) (v : Int),
    (∀ x, x ∈ a → ∃ F, exec (Instr.enc x.1.dt x.1.len x.2) s = .next { s with reply := some (.ok (.field F)) }) →
    (∀ e, exec (Instr.enc t.dt t.len v) s = .next { s with reply := some (.err e none) } →
      exec (.pack (a ++ (t, v) :: c)) s = .next { s with reply := some (.err e (some a.length)) }) ∧
    (∀ r, exec (Instr.enc t.dt t.len v) s = .refused r → exec (.pack (a ++ (t, v) :: c)) s = .refused r)

/-- R93, R143, R144: the field that PACK builds from a list of values, bound and unpacked with the same tokens, gives the values
back (program P4 of the test vectors, for every plan). -/
def Obligations.UnpackOfPackGivesTheValuesBack : Prop :=
  ∀ (s : State) (plan : List (Token × Int)) (F : Bits),
    exec (.pack plan) s = .next { s with reply := some (.ok (.field F)) } →
    s.fault = false → s.origin = .msb0 →
    exec (.bind F) s = .next { s with seq := F, pos := 0, reply := some (.ok .none) } ∧
    exec (.unpack (plan.map Prod.fst)) { s with seq := F, pos := 0 } =
      .next { s with seq := F, pos := 0, reply := some (.ok (.ints (plan.map Prod.snd))) }

/-! ## Control -/

/-- R146: SETPOS sets the cursor inside `0 .. L` and is ValueError-class outside it; it does not clear `FAULT`. -/
def Obligations.SetposSetsTheCursorInRange : Prop :=
  ∀ (s : State) (p : Int),
    (0 ≤ p ∧ p ≤ s.seq.length →
      exec (.setpos p) s = .next { s with pos := p.toNat, reply := some (.ok .none) }) ∧
    (p < 0 ∨ s.seq.length < p → exec (.setpos p) s = .next { s with reply := some (.err .valuePosRange none) })

/-- R145: SETORIGIN; a change while `pos ≠ 0` is performed, sets `FAULT` and fails. -/
def Obligations.SetoriginSwitchesAndFlagsTheHazard : Prop :=
  ∀ (s : State) (o : Origin),
    (o ≠ s.origin → s.pos ≠ 0 →
      exec (.setorigin o) s =
        .next { s with origin := o, fault := true, reply := some (.err (.originHazard .switch) none) }) ∧
    (o = s.origin ∨ s.pos = 0 →
      exec (.setorigin o) s = .next { s with origin := o, reply := some (.ok .none) })

/-- R147: BIND takes the sequence and puts the cursor at 0, `ORIGIN` and `FAULT` unchanged; above `MAX_LEN` it is refused. -/
def Obligations.BindReplacesTheSequence : Prop :=
  ∀ (s : State) (seq : Bits),
    (s.params.within seq.length = true →
      exec (.bind seq) s = .next { s with seq := seq, pos := 0, reply := some (.ok .none) }) ∧
    (s.params.within seq.length = false → exec (.bind seq) s = .refused .lengthAboveMaxLen)

/-- R148: GETPOS returns the cursor. -/
def Obligations.GetposReturnsTheCursor : Prop :=
  ∀ s : State, exec .getpos s = .next { s with reply := some (.ok (.int s.pos)) }

/-- R173: SETPOS 0, SETORIGIN, SETPOS p changes the origin in the middle of a sequence without the hazard. -/
def Obligations.HazardFreeOriginSwitch : Prop :=
  ∀ (s : State) (o : Origin) (p : Nat), p ≤ s.seq.length →
    ∃ s₁ s₂ : State,
      exec (.setpos 0) s = .next s₁ ∧ exec (.setorigin o) s₁ = .next s₂ ∧
      exec (.setpos p) s₂ = .next { s with origin := o, pos := p, reply := some (.ok .none) }

/-! ## The whole machine -/

/-- R21, R5: `0 ≤ pos ≤ L` and `L` within `MAX_LEN` at every command boundary: every step keeps it, from every state. -/
def Obligations.StepKeepsTheInvariant : Prop :=
  ∀ s s' : State, s.Inv → step s = .next s' → s'.Inv

/-- R23: `FAULT` is set only by a SETORIGIN that changes the origin while `pos ≠ 0`, and no step clears it. -/
def Obligations.FaultIsStickyAndSetBySwitchOnly : Prop :=
  ∀ s s' : State, step s = .next s' →
    (s.fault = true → s'.fault = true) ∧
    (s.fault = false → s'.fault = true →
      ∃ t ts o, s.port = t :: ts ∧ decode t = .ok (.setorigin o) ∧ o ≠ s.origin ∧ s.pos ≠ 0)

/-- R20, R21, R22: who writes the state elements: `SEQ` BIND alone, `ORIGIN` SETORIGIN alone, `pos` READ, READLIST, SETPOS and
BIND alone. -/
def Obligations.StateElementsHaveTheirWriters : Prop :=
  ∀ (i : Instr) (s t : State), exec i s = .next t →
    (t.seq ≠ s.seq → i = .bind t.seq) ∧
    (t.origin ≠ s.origin → i = .setorigin t.origin) ∧
    (t.pos ≠ s.pos →
      (∃ dt len, i = Instr.read dt len) ∨ (∃ plan, i = .readlist plan) ∨ (∃ p, i = .setpos p) ∨ (∃ q, i = .bind q))

/-- R25, R30, R55, R175: a step never changes `HOSTORD` or `MAX_LEN`, leaves the transactions behind the one it takes in order, and
puts a reply on the ports for the one it takes (the ports are in the model's form: logs 1, 2, 3). -/
def Obligations.StepKeepsParametersAndOrder : Prop :=
  ∀ s s' : State, step s = .next s' →
    s'.params = s.params ∧ s'.port = s.port.tail ∧ (s.port ≠ [] → s'.reply ≠ none)

/-- R153: a command that fails changes no state, an illegal one neither, but for SETORIGIN's OriginHazard(Switch), which writes
`ORIGIN` and sets `FAULT`. -/
def Obligations.FailingCommandsChangeNoState : Prop :=
  ∀ (s s' : State) (t : Transaction) (ts : List Transaction) (e : Error) (j : Option Nat),
    s.port = t :: ts → step s = .next s' → s'.reply = some (.err e j) →
    (e ≠ .originHazard .switch ∧ s' = { s with port := ts, reply := some (.err e j) }) ∨
    (e = .originHazard .switch ∧ ∃ o, decode t = .ok (.setorigin o) ∧ o ≠ s.origin ∧ s.pos ≠ 0 ∧
      s' = { s with port := ts, origin := o, fault := true, reply := some (.err e j) })

/-- R85 to R92, R104 to R111, R122, R132 to R139, R141 to R144, R148, frames: ENC, DEC, PEEK, PEEKLIST, UNPACK, PACK and GETPOS
change nothing but the reply; READ and READLIST change the cursor besides, which never goes back (R27). -/
def Obligations.ReadingCommandsLeaveTheStateAlone : Prop :=
  ∀ (i : Instr) (s t : State), exec i s = .next t →
    ((Spec.PortsOnly i ∨ i = .getpos ∨ (∃ dt len, i = Instr.peek dt len) ∨ (∃ plan, i = .peeklist plan) ∨
        (∃ plan, i = .unpack plan)) →
      t = { s with reply := t.reply }) ∧
    (((∃ dt len, i = Instr.read dt len) ∨ (∃ plan, i = .readlist plan)) →
      t = { s with pos := t.pos, reply := t.reply } ∧ s.pos ≤ t.pos)

/-- R5, R155: where the invariant holds, a command within the limit is never refused, and a refusal always means a length above
`MAX_LEN`. What `wellFormed` checks is the model's choice (log 18), and so is where a read plan's total is compared (log 10). -/
def Obligations.CommandsWithinTheLimitRun : Prop :=
  ∀ (i : Instr) (s : State), s.Inv →
    (i.wellFormed s.params = true → ∃ t, exec i s = .next t) ∧
    (∀ r, exec i s = .refused r → r = .lengthAboveMaxLen ∧ i.wellFormed s.params = false)

/-- R150: the status codes that each command can answer with. -/
def Obligations.CommandsRaiseTheirOwnErrors : Prop :=
  ∀ (s t : State) (e : Error) (j : Option Nat), t.reply = some (.err e j) →
    (∀ dt len v, exec (Instr.enc dt len v) s = .next t → e.code ∈ [1, 3]) ∧
    (∀ dt F, exec (Instr.dec dt F) s = .next t → e.code ∈ [2, 3]) ∧
    (∀ dt len, exec (Instr.read dt len) s = .next t → e.code ∈ [2, 3, 4, 7]) ∧
    (∀ dt len, exec (Instr.peek dt len) s = .next t → e.code ∈ [2, 3, 4, 7]) ∧
    (∀ plan, exec (.readlist plan) s = .next t → e.code ∈ [1, 2, 3, 4, 7]) ∧
    (∀ plan, exec (.peeklist plan) s = .next t → e.code ∈ [1, 2, 3, 4, 7]) ∧
    (∀ plan, exec (.unpack plan) s = .next t → e.code ∈ [1, 2, 3, 4, 7]) ∧
    (∀ plan, exec (.pack plan) s = .next t → e.code ∈ [1, 3]) ∧
    (∀ p, exec (.setpos p) s = .next t → e.code = 5) ∧
    (∀ o, exec (.setorigin o) s = .next t → e.code = 7) ∧
    (∀ q, exec (.bind q) s ≠ .next t) ∧
    exec .getpos s ≠ .next t

/-- R151: an error carries an entry's index only from a list command, and then the index of an entry of its plan. -/
def Obligations.ErrorIndexIsAnEntryOfThePlan : Prop :=
  ∀ (i : Instr) (s t : State) (e : Error) (j : Nat),
    exec i s = .next t → t.reply = some (.err e (some j)) →
    (∃ plan : List Token, (i = .readlist plan ∨ i = .peeklist plan ∨ i = .unpack plan) ∧ j < plan.length) ∨
    (∃ plan : List (Token × Int), i = .pack plan ∧ j < plan.length)

/-- R29: what the result port carries on success: a field from ENC and PACK, an integer from DEC, READ, PEEK and GETPOS, one
integer for each entry from READLIST, PEEKLIST and UNPACK, nothing from SETPOS, SETORIGIN and BIND. -/
def Obligations.ResultsHaveTheirKind : Prop :=
  ∀ (s t : State) (r : Result), t.reply = some (.ok r) →
    (∀ dt len v, exec (Instr.enc dt len v) s = .next t → ∃ F, r = .field F) ∧
    (∀ plan, exec (.pack plan) s = .next t → ∃ F, r = .field F) ∧
    (∀ dt F, exec (Instr.dec dt F) s = .next t → ∃ v, r = .int v) ∧
    (∀ dt len, exec (Instr.read dt len) s = .next t → ∃ v, r = .int v) ∧
    (∀ dt len, exec (Instr.peek dt len) s = .next t → ∃ v, r = .int v) ∧
    (exec .getpos s = .next t → ∃ v, r = .int v) ∧
    (∀ plan, exec (.readlist plan) s = .next t → ∃ vs, r = .ints vs ∧ vs.length = plan.length) ∧
    (∀ plan, exec (.peeklist plan) s = .next t → ∃ vs, r = .ints vs ∧ vs.length = plan.length) ∧
    (∀ plan, exec (.unpack plan) s = .next t → ∃ vs, r = .ints vs ∧ vs.length = plan.length) ∧
    (∀ p, exec (.setpos p) s = .next t → r = .none) ∧
    (∀ o, exec (.setorigin o) s = .next t → r = .none) ∧
    (∀ q, exec (.bind q) s = .next t → r = .none)

/-- R24: no command reads what an earlier one left on the ports. -/
def Obligations.NoCommandReadsTheReply : Prop :=
  ∀ (i : Instr) (s : State) (r : Option Reply), exec i { s with reply := r } = exec i s

/-! ## The host's side -/

/-- R41: the stored bits of a view, from the bits of the bytes counted from their most significant (the byte-internal order is
the spec's decision D23: log 16). -/
def Obligations.ViewBitsAreBufferBits : Prop :=
  ∀ v : View, viewValid v = true →
    (viewBits v).length = v.length ∧
    ∀ k, k < v.length →
      ∃ b, v.buffer[(v.offset + k) / 8]? = some b ∧
        (viewBits v)[k]? = some (b.getLsbD (7 - (v.offset + k) % 8))

/-- R42: a field turned into bytes is padded with zero bits at its end, up to the next byte boundary and no further. -/
def Obligations.BytesOfAFieldArePaddedAtTheEnd : Prop :=
  ∀ F : Bits, ∃ k, k < 8 ∧ (F.length + k) % 8 = 0 ∧ bufferBits (toBytes F) = F ++ List.replicate k false

/-- R73: the spelling of a token, with or without the colon, is read back as the token and its value. -/
def Obligations.SpelledTokensAreReadBack : Prop :=
  ∀ (colon : Bool) (t : Token) (v : Option Int), parseToken (spellToken colon t v) = some (t, v)

/-- R75: the pseudo-commands and their expansions. -/
def Obligations.PseudoCommandsExpand : Prop :=
  assemble ['R', 'E', 'W', 'I', 'N', 'D'] = .ok (.setpos 0) ∧
  assemble ['M', 'S', 'B', '0'] = .ok (.setorigin .msb0) ∧
  assemble ['L', 'S', 'B', '0'] = .ok (.setorigin .lsb0) ∧
  assemble ['R', 'E', 'A', 'D', ' ', 'i', 'n', 't', 'l', 'e', '1', '6'] = .ok (.readIntle (some 16)) ∧
  assemble ['P', 'E', 'E', 'K', ' ', 'u', 'i', 'n', 't', ':', '6'] = .ok (.peekUint (some 6))
end

