-- ==== Sys2Proof/Laws/Decode.lean ====
section
/-! SUPPORT. Laws/Decode.lean: tokens and plans on the port. -/

namespace Sys2Proof

/-- A token code is read as the dtype it stands for (R67, R70). -/
theorem decodeToken_encodeToken (t : Token) : decodeToken (encodeToken t) = some t := by
  rcases t with ⟨⟨_ | _, _ | _ | _ | _⟩, len⟩ <;>
    simp [decodeToken, encodeToken, Dtype.code, decodeSign, decodeByteOrder]

theorem decodePlan_map_encodeToken (plan : List Token) : decodePlan (plan.map encodeToken) = some plan := by
  induction plan with
  | nil => rfl
  | cons t ts ih => simp [decodePlan, decodeToken_encodeToken, ih]

theorem decodePackPlan_map_encodeToken (plan : List (Token × Int)) :
    decodePackPlan (plan.map fun e => (encodeToken e.1, e.2)) = some plan := by
  induction plan with
  | nil => rfl
  | cons e es ih => simp [decodePackPlan, decodeToken_encodeToken, ih]

/-- A token code with a bit of `TK[7:3]` set is no token (R67). -/
theorem decodeToken_of_ge {t : RawToken} (h : 8 ≤ t.tk.toNat) : decodeToken t = none := by
  have key : ∀ tk : Byte, 8 ≤ tk.toNat → tk.extractLsb' 3 5 ≠ 0b00000#5 := by decide +kernel
  simp [decodeToken, key t.tk h]

end Sys2Proof
end

