-- ==== Sys2Proof/Laws/State.lean ====
section
/-! SUPPORT. Laws/State.lean: one lemma per field per update of State, and the small facts of the state. -/

namespace Sys2Proof.Machine

@[simp] theorem State.respond_seq (s : State) (r : Result) : (s.respond r).seq = s.seq := rfl
@[simp] theorem State.respond_pos (s : State) (r : Result) : (s.respond r).pos = s.pos := rfl
@[simp] theorem State.respond_origin (s : State) (r : Result) : (s.respond r).origin = s.origin := rfl
@[simp] theorem State.respond_fault (s : State) (r : Result) : (s.respond r).fault = s.fault := rfl
@[simp] theorem State.respond_params (s : State) (r : Result) : (s.respond r).params = s.params := rfl
@[simp] theorem State.respond_port (s : State) (r : Result) : (s.respond r).port = s.port := rfl
@[simp] theorem State.respond_reply (s : State) (r : Result) : (s.respond r).reply = some (.ok r) := rfl

@[simp] theorem State.raiseError_seq (s : State) (e : Error) (j : Option Nat) : (s.raiseError e j).seq = s.seq := rfl
@[simp] theorem State.raiseError_pos (s : State) (e : Error) (j : Option Nat) : (s.raiseError e j).pos = s.pos := rfl
@[simp] theorem State.raiseError_origin (s : State) (e : Error) (j : Option Nat) : (s.raiseError e j).origin = s.origin := rfl
@[simp] theorem State.raiseError_fault (s : State) (e : Error) (j : Option Nat) : (s.raiseError e j).fault = s.fault := rfl
@[simp] theorem State.raiseError_params (s : State) (e : Error) (j : Option Nat) : (s.raiseError e j).params = s.params := rfl
@[simp] theorem State.raiseError_port (s : State) (e : Error) (j : Option Nat) : (s.raiseError e j).port = s.port := rfl
@[simp] theorem State.raiseError_reply (s : State) (e : Error) (j : Option Nat) : (s.raiseError e j).reply = some (.err e j) := rfl

@[simp] theorem State.setFault_seq (s : State) : (s.setFault).seq = s.seq := rfl
@[simp] theorem State.setFault_pos (s : State) : (s.setFault).pos = s.pos := rfl
@[simp] theorem State.setFault_origin (s : State) : (s.setFault).origin = s.origin := rfl
@[simp] theorem State.setFault_fault (s : State) : (s.setFault).fault = true := rfl
@[simp] theorem State.setFault_params (s : State) : (s.setFault).params = s.params := rfl
@[simp] theorem State.setFault_port (s : State) : (s.setFault).port = s.port := rfl
@[simp] theorem State.setFault_reply (s : State) : (s.setFault).reply = s.reply := rfl

@[simp] theorem State.resetOf_seq (prm : Params) : (State.resetOf prm).seq = [] := rfl
@[simp] theorem State.resetOf_pos (prm : Params) : (State.resetOf prm).pos = 0 := rfl
@[simp] theorem State.resetOf_origin (prm : Params) : (State.resetOf prm).origin = .msb0 := rfl
@[simp] theorem State.resetOf_fault (prm : Params) : (State.resetOf prm).fault = false := rfl
@[simp] theorem State.resetOf_params (prm : Params) : (State.resetOf prm).params = prm := rfl
@[simp] theorem State.resetOf_port (prm : Params) : (State.resetOf prm).port = [] := rfl
@[simp] theorem State.resetOf_reply (prm : Params) : (State.resetOf prm).reply = none := rfl

/-- A state is its own fields. -/
theorem State.with_reply_self (s : State) : { s with reply := s.reply } = s := rfl

theorem State.takeTransaction_nil {s : State} (h : s.port = []) : s.takeTransaction = none := by
  simp [State.takeTransaction, h]

theorem State.takeTransaction_cons {s : State} {t : Transaction} {ts : List Transaction} (h : s.port = t :: ts) :
    s.takeTransaction = some (t, { s with port := ts }) := by
  simp [State.takeTransaction, h]

/-- The empty sequence is within every limit. -/
@[simp] theorem within_zero (prm : Params) : prm.within 0 = true := by
  unfold Params.within; split <;> simp

/-- A shorter length than a supported one is supported. -/
theorem within_mono {prm : Params} {m n : Nat} (h : m ≤ n) (hn : prm.within n = true) : prm.within m = true := by
  unfold Params.within at *
  split <;> simp_all
  omega

end Sys2Proof.Machine
end

