-- ==== Sys2Proof/Laws/Fields.lean ====
section
/-! SUPPORT. Laws/Fields.lean: fields and integers: `msbfirst`, `uval`, `bytesOf`, `byterev`, `canon`, and the two pipelines. -/

namespace Sys2Proof.Machine

@[simp] theorem length_msbfirst (n u : Nat) : (msbfirst n u).length = n := by
  induction n with
  | zero => rfl
  | succ n ih => simp [msbfirst, ih]

/-- R8: `msbfirst_n(u)[i] = u[n-1-i]`. -/
theorem getElem?_msbfirst (n u i : Nat) (h : i < n) : (msbfirst n u)[i]? = some (u.testBit (n - 1 - i)) := by
  induction n generalizing i with
  | zero => omega
  | succ n ih =>
    cases i with
    | zero => simp [msbfirst]
    | succ i =>
      have hi : i < n := by omega
      simp only [msbfirst, List.getElem?_cons_succ, ih i hi]
      congr 2; omega

/-- R101: an unsigned value lies below `2^n`. -/
theorem uval_lt (F : Bits) : uval F < 2 ^ F.length := by
  induction F with
  | nil => simp [uval]
  | cons b F ih => cases b <;> simp [uval, Nat.pow_succ] <;> omega

/-- The value of the low `n` bits of `u`. -/
theorem uval_msbfirst (n u : Nat) : uval (msbfirst n u) = u % 2 ^ n := by
  induction n with
  | zero => simp [msbfirst, uval, Nat.mod_one]
  | succ n ih =>
    rw [msbfirst, uval, ih, length_msbfirst, Nat.mod_pow_succ, Nat.testBit_eq_decide_div_mod_eq]
    rcases Nat.mod_two_eq_zero_or_one (u / 2 ^ n) with h | h <;> simp [h, Nat.add_comm]

/-- The field is determined by its value and its length. -/
theorem msbfirst_uval (F : Bits) : msbfirst F.length (uval F) = F := by
  have key : ∀ (F : Bits) (k : Nat), msbfirst F.length (k * 2 ^ F.length + uval F) = F := by
    intro F
    induction F with
    | nil => intro k; rfl
    | cons b F ih =>
      intro k
      have hlt := uval_lt F
      have hval : k * 2 ^ (b :: F).length + uval (b :: F) = (2 * k + b.toNat) * 2 ^ F.length + uval F := by
        simp [uval, Nat.pow_succ]; ring
      rw [hval]
      simp only [List.length_cons, msbfirst, ih, List.cons.injEq, and_true]
      rw [Nat.testBit_eq_decide_div_mod_eq, Nat.add_comm, Nat.add_mul_div_right _ _ (by positivity),
        Nat.div_eq_of_lt hlt]
      cases b <;> simp
  simpa using key F 0

theorem length_bytesOf (m : Nat) (F : Bits) : (bytesOf m F).length = m := by
  induction m generalizing F with
  | zero => rfl
  | succ m ih => simp [bytesOf, ih]

/-- Byte `j` of a field (R10). -/
theorem getElem?_bytesOf (m j : Nat) (F : Bits) (h : j < m) : (bytesOf m F)[j]? = some ((F.drop (8 * j)).take 8) := by
  induction m generalizing F j with
  | zero => omega
  | succ m ih =>
    cases j with
    | zero => simp [bytesOf]
    | succ j =>
      simp only [bytesOf, List.getElem?_cons_succ, ih j _ (by omega), List.drop_drop]
      congr 3; omega

/-- The bytes of a whole-byte field put together are the field. -/
theorem flatten_bytesOf (m : Nat) (F : Bits) (h : F.length = 8 * m) : (bytesOf m F).flatten = F := by
  induction m generalizing F with
  | zero => simpa [bytesOf] using h
  | succ m ih =>
    rw [bytesOf, List.flatten_cons, ih _ (by simp; omega), List.take_append_drop]

/-- Every byte has eight bits. -/
theorem length_of_mem_bytesOf (m : Nat) (F B : Bits) (h : F.length = 8 * m) (hB : B ∈ bytesOf m F) : B.length = 8 := by
  induction m generalizing F with
  | zero => simp [bytesOf] at hB
  | succ m ih =>
    rcases List.mem_cons.mp hB with rfl | hB
    · simp; omega
    · exact ih _ (by simp; omega) hB

/-- The bytes of a list of bytes put together are that list. -/
theorem bytesOf_flatten (Bs : List Bits) (h : ∀ B ∈ Bs, B.length = 8) : bytesOf Bs.length Bs.flatten = Bs := by
  induction Bs with
  | nil => rfl
  | cons B Bs ih =>
    have hB : B.length = 8 := h B (by simp)
    have := ih fun C hC => h C (by simp [hC])
    simp only [List.length_cons, bytesOf, List.flatten_cons]
    rw [List.take_left' hB, List.drop_left' hB, this]

/-- The length of a list of bytes put together. -/
theorem length_flatten_bytes (Bs : List Bits) (h : ∀ B ∈ Bs, B.length = 8) : Bs.flatten.length = 8 * Bs.length := by
  induction Bs with
  | nil => rfl
  | cons B Bs ih =>
    have hB : B.length = 8 := h B (by simp)
    have := ih fun C hC => h C (by simp [hC])
    simp [hB]; grind

/-- The byte-order stage keeps the length of a field of whole bytes. -/
theorem length_byterev (F : Bits) (h : F.length % 8 = 0) : (byterev F).length = F.length := by
  have hm : F.length = 8 * (F.length / 8) := by omega
  rw [byterev, length_flatten_bytes]
  · simp [length_bytesOf]; omega
  · intro B hB; exact length_of_mem_bytesOf _ F B hm (by simpa using hB)

/-- `canon` keeps the length of a field that the whole-byte rule accepts. -/
theorem length_canon (prm : Params) (bo : ByteOrder) (F : Bits) (h : misaligned bo F.length = false) :
    (canon prm bo F).length = F.length := by
  have hle : bo ≠ .bit → F.length % 8 = 0 := by
    intro hb; by_contra hc; simp [misaligned, hb, hc] at h
  cases bo <;> simp [canon, resolve]
  · exact length_byterev F (hle (by simp))
  · cases prm.hostOrd <;> simp
    exact length_byterev F (hle (by simp))

/-- When EncCore answers a field: the length is present, supported, not 0, whole bytes where it must be, the value in
range, and the field is the canonical one in its byte order (R80). -/
theorem encCore_eq_ok {prm : Params} {dt : Dtype} {len : Option Nat} {v : Int} {F : Bits} :
    encCore prm dt len v = .ok F ↔
      ∃ n, len = some n ∧ prm.within n = true ∧ n ≠ 0 ∧ misaligned dt.bo n = false ∧ inRange dt.sg n v = true ∧
        F = canon prm dt.bo (msbfirst n (v % 2 ^ n).toNat) := by
  cases len with
  | none => simp [encCore]
  | some n =>
    simp only [encCore, Option.some.injEq, exists_eq_left']
    split_ifs with h1 h2 h3 h4
    · simp_all
    · simp_all
    · simp_all
    · simp_all
    · constructor
      · intro h; simp at h h1 h3 h4; exact ⟨h1, h2, h3, h4, h.symm⟩
      · rintro ⟨-, -, -, -, rfl⟩; rfl

/-- When DecCore answers a value (R100). -/
theorem decCore_eq_ok {prm : Params} {dt : Dtype} {F : Bits} {v : Int} :
    decCore prm dt F = .ok v ↔
      prm.within F.length = true ∧ F.length ≠ 0 ∧ misaligned dt.bo F.length = false ∧
        v = fieldValue dt.sg (canon prm dt.bo F) := by
  simp only [decCore]
  split_ifs with h1 h2 h3
  · simp_all
  · simp_all
  · simp_all
  · constructor
    · intro h; simp at h h1 h3; exact ⟨h1, h2, h3, h.symm⟩
    · rintro ⟨-, -, -, rfl⟩; rfl

/-- The field that EncCore answers has the length it was asked for. -/
theorem length_of_encCore {prm : Params} {dt : Dtype} {n : Nat} {v : Int} {F : Bits}
    (h : encCore prm dt (some n) v = .ok F) : F.length = n := by
  obtain ⟨m, hm, -, -, hal, -, rfl⟩ := encCore_eq_ok.mp h
  obtain rfl : n = m := by simpa using hm
  rw [length_canon _ _ _ (by simpa using hal), length_msbfirst]

/-- The errors that EncCore raises (R80, R150): codes 1 and 3, without an index. -/
theorem encCore_raise {prm : Params} {dt : Dtype} {len : Option Nat} {v : Int} {e : Error} {j : Option Nat}
    (h : encCore prm dt len v = .raise e j) :
    j = none ∧ ((∃ c, e = .creation c) ∨ ∃ n, e = .byteAlign n) := by
  cases len with
  | none => simp [encCore] at h; grind
  | some n => simp only [encCore] at h; split_ifs at h <;> simp at h <;> grind

/-- The errors that DecCore raises (R100, R150): codes 2 and 3, without an index. -/
theorem decCore_raise {prm : Params} {dt : Dtype} {F : Bits} {e : Error} {j : Option Nat}
    (h : decCore prm dt F = .raise e j) :
    j = none ∧ (e = .interpretZeroLength ∨ e = .byteAlign F.length) := by
  simp only [decCore] at h
  split_ifs at h <;> simp at h <;> grind

/-- EncCore refuses a length above `MAX_LEN` and nothing else (R80 stage E1a). -/
theorem encCore_eq_refuse {prm : Params} {dt : Dtype} {len : Option Nat} {v : Int} :
    encCore prm dt len v = .refuse ↔ ∃ n, len = some n ∧ prm.within n = false := by
  cases len with
  | none => simp [encCore]
  | some n => simp only [encCore]; split_ifs <;> simp_all

/-- DecCore refuses a field longer than `MAX_LEN` and nothing else (R100 stage D0). -/
theorem decCore_eq_refuse {prm : Params} {dt : Dtype} {F : Bits} :
    decCore prm dt F = .refuse ↔ prm.within F.length = false := by
  simp only [decCore]
  split_ifs <;> simp_all

end Sys2Proof.Machine
end

