-- ==== Sys2Proof/Laws/Ops.lean ====
section
/-! SUPPORT. Laws/Ops.lean: what each shared operation can do, said once, and what a command can do to the state. -/

namespace Sys2Proof.Machine

/-! ## The commands of a dtype are one shared operation each -/

theorem exec_enc (dt : Dtype) (len : Option Nat) (v : Int) (s : State) :
    exec (Instr.enc dt len v) s = encCommand dt len v s := by
  rcases dt with ⟨_ | _, _ | _ | _ | _⟩ <;> rfl

theorem exec_dec (dt : Dtype) (F : Bits) (s : State) : exec (Instr.dec dt F) s = decCommand dt F s := by
  rcases dt with ⟨_ | _, _ | _ | _ | _⟩ <;> rfl

theorem exec_read (dt : Dtype) (len : Option Nat) (s : State) : exec (Instr.read dt len) s = readCommand dt len s := by
  rcases dt with ⟨_ | _, _ | _ | _ | _⟩ <;> rfl

theorem exec_peek (dt : Dtype) (len : Option Nat) (s : State) : exec (Instr.peek dt len) s = peekCommand dt len s := by
  rcases dt with ⟨_ | _, _ | _ | _ | _⟩ <;> rfl

/-- Every command is one of the twelve shapes (R71). -/
theorem instr_shapes (i : Instr) :
    (∃ dt len v, i = Instr.enc dt len v) ∨ (∃ dt F, i = Instr.dec dt F) ∨ (∃ dt len, i = Instr.read dt len) ∨
    (∃ dt len, i = Instr.peek dt len) ∨ (∃ p, i = .readlist p) ∨ (∃ p, i = .peeklist p) ∨ (∃ p, i = .unpack p) ∨
    (∃ p, i = .pack p) ∨ (∃ p, i = .setpos p) ∨ (∃ o, i = .setorigin o) ∨ (∃ q, i = .bind q) ∨ i = .getpos := by
  cases i
  case encUint len v   => exact .inl ⟨⟨.unsigned, .bit⟩, len, v, rfl⟩
  case encUintbe len v => exact .inl ⟨⟨.unsigned, .be⟩, len, v, rfl⟩
  case encUintle len v => exact .inl ⟨⟨.unsigned, .le⟩, len, v, rfl⟩
  case encUintne len v => exact .inl ⟨⟨.unsigned, .ne⟩, len, v, rfl⟩
  case encInt len v    => exact .inl ⟨⟨.signed, .bit⟩, len, v, rfl⟩
  case encIntbe len v  => exact .inl ⟨⟨.signed, .be⟩, len, v, rfl⟩
  case encIntle len v  => exact .inl ⟨⟨.signed, .le⟩, len, v, rfl⟩
  case encIntne len v  => exact .inl ⟨⟨.signed, .ne⟩, len, v, rfl⟩
  case decUint F   => exact .inr (.inl ⟨⟨.unsigned, .bit⟩, F, rfl⟩)
  case decUintbe F => exact .inr (.inl ⟨⟨.unsigned, .be⟩, F, rfl⟩)
  case decUintle F => exact .inr (.inl ⟨⟨.unsigned, .le⟩, F, rfl⟩)
  case decUintne F => exact .inr (.inl ⟨⟨.unsigned, .ne⟩, F, rfl⟩)
  case decInt F    => exact .inr (.inl ⟨⟨.signed, .bit⟩, F, rfl⟩)
  case decIntbe F  => exact .inr (.inl ⟨⟨.signed, .be⟩, F, rfl⟩)
  case decIntle F  => exact .inr (.inl ⟨⟨.signed, .le⟩, F, rfl⟩)
  case decIntne F  => exact .inr (.inl ⟨⟨.signed, .ne⟩, F, rfl⟩)
  case readUint n   => exact .inr (.inr (.inl ⟨⟨.unsigned, .bit⟩, n, rfl⟩))
  case readUintbe n => exact .inr (.inr (.inl ⟨⟨.unsigned, .be⟩, n, rfl⟩))
  case readUintle n => exact .inr (.inr (.inl ⟨⟨.unsigned, .le⟩, n, rfl⟩))
  case readUintne n => exact .inr (.inr (.inl ⟨⟨.unsigned, .ne⟩, n, rfl⟩))
  case readInt n    => exact .inr (.inr (.inl ⟨⟨.signed, .bit⟩, n, rfl⟩))
  case readIntbe n  => exact .inr (.inr (.inl ⟨⟨.signed, .be⟩, n, rfl⟩))
  case readIntle n  => exact .inr (.inr (.inl ⟨⟨.signed, .le⟩, n, rfl⟩))
  case readIntne n  => exact .inr (.inr (.inl ⟨⟨.signed, .ne⟩, n, rfl⟩))
  case peekUint n   => exact .inr (.inr (.inr (.inl ⟨⟨.unsigned, .bit⟩, n, rfl⟩)))
  case peekUintbe n => exact .inr (.inr (.inr (.inl ⟨⟨.unsigned, .be⟩, n, rfl⟩)))
  case peekUintle n => exact .inr (.inr (.inr (.inl ⟨⟨.unsigned, .le⟩, n, rfl⟩)))
  case peekUintne n => exact .inr (.inr (.inr (.inl ⟨⟨.unsigned, .ne⟩, n, rfl⟩)))
  case peekInt n    => exact .inr (.inr (.inr (.inl ⟨⟨.signed, .bit⟩, n, rfl⟩)))
  case peekIntbe n  => exact .inr (.inr (.inr (.inl ⟨⟨.signed, .be⟩, n, rfl⟩)))
  case peekIntle n  => exact .inr (.inr (.inr (.inl ⟨⟨.signed, .le⟩, n, rfl⟩)))
  case peekIntne n  => exact .inr (.inr (.inr (.inl ⟨⟨.signed, .ne⟩, n, rfl⟩)))
  all_goals simp

/-! ## Ending a command -/

theorem conclude_eq_next {α : Type} {s t : State} {r : Staged α} {k : α → State} :
    conclude s r k = .next t ↔
      (∃ a, r = .ok a ∧ t = k a) ∨ (∃ e j, r = .raise e j ∧ t = s.raiseError e j) := by
  cases r <;> simp [conclude, eq_comm]

theorem conclude_eq_refused {α : Type} {s : State} {r : Staged α} {k : α → State} {x : Refusal} :
    conclude s r k = .refused x ↔ r = .refuse ∧ x = .lengthAboveMaxLen := by
  cases r <;> simp [conclude, eq_comm]

theorem hazardGate_set {s : State} {k : Outcome} (h : s.fault = true) :
    hazardGate s k = .next (s.raiseError (.originHazard .undefined) none) := by
  simp [hazardGate, h]

theorem hazardGate_clear {s : State} {k : Outcome} (h : s.fault = false) : hazardGate s k = k := by
  simp [hazardGate, h]

theorem hazardGate_eq_next {s t : State} {k : Outcome} :
    hazardGate s k = .next t ↔
      (s.fault = true ∧ t = s.raiseError (.originHazard .undefined) none) ∨ (s.fault = false ∧ k = .next t) := by
  cases h : s.fault <;> simp [hazardGate, h, eq_comm]

/-! ## Reading one field -/

theorem length_memRead {s : State} {p n : Nat} (h : p + n ≤ s.seq.length) : (s.memRead p n).length = n := by
  unfold State.memRead State.fieldStart
  cases s.origin <;> simp <;> omega

/-- When ReadCore answers a value: where it stands, how many bits it took, and that DecCore gives it (R120). -/
theorem readCore_eq_ok {s : State} {dt : Dtype} {len : Option Nat} {p : Nat} {r : Int × Nat} :
    readCore s dt len p = .ok r ↔
      p ≠ s.seq.length ∧ p + r.2 ≤ s.seq.length ∧ r.2 = len.getD (s.seq.length - p) ∧
        decCore s.params dt (s.memRead p r.2) = .ok r.1 := by
  obtain ⟨v, n⟩ := r
  simp only [readCore]
  generalize len.getD (s.seq.length - p) = m
  split_ifs with h1 h2
  · simp [h1]
  · simp only [false_iff, not_and]
    rintro - h3 rfl; omega
  · constructor
    · intro h
      split at h <;> simp at h
      obtain ⟨rfl, rfl⟩ := h
      exact ⟨h1, by omega, rfl, by assumption⟩
    · rintro ⟨-, -, rfl, h⟩
      simp [h]

/-- ReadCore refuses only a field longer than `MAX_LEN` that lies inside `SEQ` (R120 stage S3). -/
theorem readCore_eq_refuse {s : State} {dt : Dtype} {len : Option Nat} {p : Nat} (h : readCore s dt len p = .refuse) :
    p + len.getD (s.seq.length - p) ≤ s.seq.length ∧ s.params.within (len.getD (s.seq.length - p)) = false := by
  simp only [readCore] at h
  split_ifs at h with h1 h2
  split at h <;> simp at h
  rename_i hd
  have hle : p + len.getD (s.seq.length - p) ≤ s.seq.length := by omega
  rw [decCore_eq_refuse, length_memRead hle] at hd
  exact ⟨hle, hd⟩

/-- A sequence within the limit is never the ground of a refused read. -/
theorem readCore_ne_refuse {s : State} {dt : Dtype} {len : Option Nat} {p : Nat} (hs : s.params.within s.seq.length = true) :
    readCore s dt len p ≠ .refuse := by
  intro h
  obtain ⟨h1, h2⟩ := readCore_eq_refuse h
  rw [within_mono (by omega) hs] at h2
  exact Bool.noConfusion h2

/-- The errors that ReadCore raises carry no index and are of the codes 2, 3, 4 (R120, R150). -/
theorem readCore_raise {s : State} {dt : Dtype} {len : Option Nat} {p : Nat} {e : Error} {j : Option Nat}
    (h : readCore s dt len p = .raise e j) : j = none ∧ e.code ∈ [2, 3, 4] := by
  simp only [readCore] at h
  split_ifs at h with h1 h2
  · obtain ⟨rfl, rfl⟩ := by simpa using h
    simp [Error.code]
  · obtain ⟨rfl, rfl⟩ := by simpa using h
    simp [Error.code]
  · split at h <;> simp at h
    rename_i hd
    obtain ⟨hj, he⟩ := decCore_raise hd
    obtain ⟨rfl, rfl⟩ := h
    refine ⟨hj, ?_⟩
    rcases he with rfl | rfl <;> simp [Error.code]

/-! ## Reading a list of fields -/

/-- When the entries of a plan are all read: one value for each, and the end position lies behind the start and inside `SEQ`. -/
theorem readEntries_ok {s : State} {plan : List Token} {j q : Nat} {r : List Int × Nat}
    (h : readEntries s j plan q = .ok r) :
    r.1.length = plan.length ∧ q ≤ r.2 ∧ (q ≤ s.seq.length → r.2 ≤ s.seq.length) := by
  induction plan generalizing j q r with
  | nil =>
    obtain rfl := by simpa [readEntries] using h
    simp
  | cons t ts ih =>
    simp only [readEntries] at h
    split at h <;> try simp at h
    rename_i hr
    split at h <;> simp at h
    rename_i ht
    obtain ⟨h1, h2, -, -⟩ := readCore_eq_ok.mp hr
    obtain ⟨i1, i2, i3⟩ := ih ht
    subst h
    simp at h2 i1 i2 i3 ⊢
    exact ⟨i1, by omega, fun _ => i3 h2⟩

/-- The error of a plan's entry carries the index of an entry of the plan (R140, R151). -/
theorem readEntries_raise {s : State} {plan : List Token} {j q : Nat} {e : Error} {k : Option Nat}
    (h : readEntries s j plan q = .raise e k) :
    (∃ i, k = some i ∧ j ≤ i ∧ i < j + plan.length) ∧ e.code ∈ [2, 3, 4] := by
  induction plan generalizing j q with
  | nil => simp [readEntries] at h
  | cons t ts ih =>
    simp only [readEntries] at h
    split at h
    · obtain ⟨rfl, rfl⟩ := by simpa using h
      rename_i hr
      exact ⟨⟨j, rfl, by simp⟩, (readCore_raise hr).2⟩
    · simp at h
    · split at h <;> simp at h
      obtain ⟨rfl, rfl⟩ := h
      rename_i ht
      obtain ⟨⟨i, rfl, h1, h2⟩, hc⟩ := ih ht
      exact ⟨⟨i, rfl, by omega, by simp; omega⟩, hc⟩

theorem readEntries_ne_refuse {s : State} {plan : List Token} {j q : Nat} (hs : s.params.within s.seq.length = true) :
    readEntries s j plan q ≠ .refuse := by
  induction plan generalizing j q with
  | nil => simp [readEntries]
  | cons t ts ih =>
    intro h
    simp only [readEntries] at h
    split at h
    · simp at h
    · exact readCore_ne_refuse hs (by assumption)
    · split at h <;> simp at h
      exact ih (by assumption)

/-- A plan without a stretchy token ends its total behind its start (R140). -/
theorem readEntries_end {s : State} {plan : List Token} {j q : Nat} {r : List Int × Nat}
    (hf : ∀ t, t ∈ plan → t.len ≠ none) (h : readEntries s j plan q = .ok r) : r.2 = q + planTotal plan := by
  induction plan generalizing j q r with
  | nil => simp [readEntries] at h; simp [← h, planTotal]
  | cons t ts ih =>
    simp only [readEntries] at h
    split at h <;> try simp at h
    rename_i v n hr
    split at h <;> simp at h
    rename_i vs q' hq
    have hrest := ih (fun u hu => hf u (by simp [hu])) hq
    obtain ⟨m, hm⟩ := Option.ne_none_iff_exists'.mp (hf t (by simp))
    have hn := (readCore_eq_ok.mp hr).2.2.1
    simp only [hm, Option.getD_some] at hn
    subst h
    simp only [planTotal, hm, Option.getD_some] at hrest ⊢
    omega

/-- The indices of stretchy tokens are indices of the plan. -/
theorem mem_stretchyIndices {plan : List Token} {j i : Nat} (h : i ∈ stretchyIndices j plan) :
    j ≤ i ∧ i < j + plan.length := by
  induction plan generalizing j with
  | nil => simp [stretchyIndices] at h
  | cons t ts ih =>
    simp only [stretchyIndices] at h
    split at h
    · rcases List.mem_cons.mp h with rfl | h
      · simp
      · have := ih h; simp; omega
    · have := ih h; simp; omega

@[simp] theorem length_resolveStretchy (ns : Nat) (plan : List Token) : (resolveStretchy ns plan).length = plan.length := by
  simp [resolveStretchy]

/-- A resolved plan's total: every stretchy token adds the length it is given (R140 stage P2). -/
theorem planTotal_resolveStretchy (ns j : Nat) (plan : List Token) :
    planTotal (resolveStretchy ns plan) = planTotal plan + ns * (stretchyIndices j plan).length := by
  induction plan generalizing j with
  | nil => simp [resolveStretchy, planTotal, stretchyIndices]
  | cons t ts ih =>
    have := ih (j + 1)
    simp only [resolveStretchy, List.map_cons, planTotal, stretchyIndices] at this ⊢
    rw [this]
    cases t.len <;> simp [Nat.mul_succ] <;> omega

/-- What the entries of a resolved plan can answer (R5, R140). -/
theorem readResolved_ok {s : State} {plan : List Token} {p : Nat} {r : List Int × Nat} (h : readResolved s plan p = .ok r) :
    s.params.within (planTotal plan) = true ∧ readEntries s 0 plan p = .ok r := by
  simp only [readResolved] at h
  split_ifs at h with hw
  exact ⟨hw, h⟩

theorem readResolved_raise {s : State} {plan : List Token} {p : Nat} {e : Error} {k : Option Nat}
    (h : readResolved s plan p = .raise e k) : readEntries s 0 plan p = .raise e k := by
  simp only [readResolved] at h
  split_ifs at h
  exact h

/-- Over a sequence within the limit, the plan's total alone is the ground of a refusal. -/
theorem readResolved_eq_refuse {s : State} {plan : List Token} {p : Nat} (hs : s.params.within s.seq.length = true) :
    readResolved s plan p = .refuse ↔ s.params.within (planTotal plan) = false := by
  simp only [readResolved]
  split_ifs with hw
  · simp [hw, readEntries_ne_refuse hs]
  · simpa using hw

/-- What a plan read can answer (R140). -/
theorem readPlan_ok {s : State} {plan : List Token} {p : Nat} {r : List Int × Nat} (h : readPlan s plan p = .ok r) :
    r.1.length = plan.length ∧ p ≤ r.2 ∧ (p ≤ s.seq.length → r.2 ≤ s.seq.length) := by
  simp only [readPlan] at h
  split at h
  · exact readEntries_ok (readResolved_ok h).2
  · split_ifs at h
    simpa using readEntries_ok (readResolved_ok h).2
  · simp at h

theorem readPlan_raise {s : State} {plan : List Token} {p : Nat} {e : Error} {k : Option Nat}
    (h : readPlan s plan p = .raise e k) :
    (∃ i, k = some i ∧ i < plan.length) ∧ e.code ∈ [1, 2, 3, 4] := by
  simp only [readPlan] at h
  split at h
  · obtain ⟨⟨i, hi, -, hlt⟩, hc⟩ := readEntries_raise (readResolved_raise h)
    exact ⟨⟨i, hi, by omega⟩, by simp at hc ⊢; omega⟩
  · rename_i j hj
    have hm : j < plan.length := by
      have := mem_stretchyIndices (plan := plan) (j := 0) (i := j) (by simp [hj]); omega
    split_ifs at h
    · obtain ⟨rfl, rfl⟩ := by simpa using h
      exact ⟨⟨j, rfl, hm⟩, by simp [Error.code]⟩
    · obtain ⟨⟨i, hi, -, hlt⟩, hc⟩ := readEntries_raise (readResolved_raise h)
      exact ⟨⟨i, hi, by simpa using hlt⟩, by simp at hc ⊢; omega⟩
  · rename_i a j b hj
    have hm : j < plan.length := by
      have := mem_stretchyIndices (plan := plan) (j := 0) (i := j) (by simp [hj]); omega
    obtain ⟨rfl, rfl⟩ := by simpa using h
    exact ⟨⟨j, rfl, hm⟩, by simp [Error.code]⟩

/-- Over a sequence within the limit, a plan read is refused for the lengths that the plan names alone: what a stretchy
token takes lies inside the sequence. -/
theorem readPlan_refuse {s : State} {plan : List Token} {p : Nat} (hs : s.params.within s.seq.length = true)
    (h : readPlan s plan p = .refuse) : s.params.within (planTotal plan) = false := by
  simp only [readPlan] at h
  split at h
  · exact (readResolved_eq_refuse hs).mp h
  · rename_i j hj
    split_ifs at h with hn
    have hw := (readResolved_eq_refuse hs).mp h
    rw [planTotal_resolveStretchy _ 0, hj] at hw
    rw [within_mono (by simp; omega) hs] at hw
    exact Bool.noConfusion hw
  · simp at h

/-! ## Building a list of fields -/

/-- The length of the packed field is the sum of the lengths of the plan (R144). -/
theorem length_packEntries {prm : Params} {plan : List (Token × Int)} {j : Nat} {F : Bits}
    (h : packEntries prm j plan = .ok F) : F.length = packTotal plan := by
  induction plan generalizing j F with
  | nil => simp [packEntries] at h; simp [← h, packTotal, planTotal]
  | cons e ps ih =>
    obtain ⟨t, v⟩ := e
    simp only [packEntries] at h
    split at h <;> try simp at h
    rename_i F₁ hr
    split at h <;> simp at h
    rename_i G ht
    subst h
    obtain ⟨n, hn, -⟩ := encCore_eq_ok.mp hr
    rw [hn] at hr
    simp [packTotal, planTotal, ih ht, hn, length_of_encCore hr]

theorem packEntries_raise {prm : Params} {plan : List (Token × Int)} {j : Nat} {e : Error} {k : Option Nat}
    (h : packEntries prm j plan = .raise e k) :
    (∃ i, k = some i ∧ j ≤ i ∧ i < j + plan.length) ∧ e.code ∈ [1, 3] := by
  induction plan generalizing j with
  | nil => simp [packEntries] at h
  | cons x ps ih =>
    obtain ⟨t, v⟩ := x
    simp only [packEntries] at h
    split at h
    · obtain ⟨rfl, rfl⟩ := by simpa using h
      rename_i hr
      refine ⟨⟨j, rfl, by simp⟩, ?_⟩
      rcases (encCore_raise hr).2 with ⟨c, rfl⟩ | ⟨n, rfl⟩ <;> simp [Error.code]
    · simp at h
    · split at h <;> simp at h
      obtain ⟨rfl, rfl⟩ := h
      rename_i ht
      obtain ⟨⟨i, rfl, h1, h2⟩, hc⟩ := ih ht
      exact ⟨⟨i, rfl, by omega, by simp; omega⟩, hc⟩

/-- A refused pack names a length above the limit (R144). -/
theorem packEntries_refuse {prm : Params} {plan : List (Token × Int)} {j : Nat} (h : packEntries prm j plan = .refuse) :
    plan.all (fun e => prm.lenWithin e.1.len) = false := by
  induction plan generalizing j with
  | nil => simp [packEntries] at h
  | cons x ps ih =>
    obtain ⟨t, v⟩ := x
    simp only [packEntries] at h
    split at h
    · simp at h
    · rename_i hr
      obtain ⟨n, hn, hw⟩ := encCore_eq_refuse.mp hr
      simp [hn, Params.lenWithin, hw]
    · split at h <;> simp at h
      rename_i ht
      have := ih ht
      simp only [List.all_cons, Bool.and_eq_false_imp]
      intro _; exact this

theorem packCore_eq_ok {prm : Params} {plan : List (Token × Int)} {F : Bits} :
    packCore prm plan = .ok F ↔ packEntries prm 0 plan = .ok F ∧ prm.within F.length = true := by
  simp only [packCore]
  split
  · simp [*]
  · simp [*]
  · split_ifs with hw
    · simp_all; rintro rfl; exact hw
    · simp_all; rintro rfl; simpa using hw

theorem packCore_raise {prm : Params} {plan : List (Token × Int)} {e : Error} {k : Option Nat}
    (h : packCore prm plan = .raise e k) : (∃ i, k = some i ∧ i < plan.length) ∧ e.code ∈ [1, 3] := by
  simp only [packCore] at h
  split at h
  · rename_i hp
    obtain ⟨rfl, rfl⟩ := by simpa using h
    obtain ⟨⟨i, hi, -, hlt⟩, hc⟩ := packEntries_raise hp
    exact ⟨⟨i, hi, by omega⟩, hc⟩
  · simp at h
  · split_ifs at h

theorem packCore_refuse {prm : Params} {plan : List (Token × Int)} (h : packCore prm plan = .refuse) :
    (Instr.pack plan).wellFormed prm = false := by
  simp only [packCore] at h
  split at h
  · simp at h
  · rename_i hp
    simp [Instr.wellFormed, packEntries_refuse hp]
  · rename_i F hp
    split_ifs at h with hw
    rw [length_packEntries hp] at hw
    simp [Instr.wellFormed, hw]

end Sys2Proof.Machine
end

