-- ==== Sys2Proof/Laws/Memory.lean ====
section
/-! SUPPORT. Laws/Memory.lean: the memory `SEQ`: its form after reset and after BIND, and the laws of reading it. -/

namespace Sys2Proof.Machine

/-- The memory after reset has its form (R170). -/
theorem reset_memory_wf (prm : Params) : Memory.wf (State.resetOf prm).params (State.resetOf prm).seq = true := by
  simp [Memory.wf]

/-- BIND, the one operation that writes the memory, leaves it in its form (R147). -/
theorem execBind_memory_wf {seq : Bits} {s t : State} (h : execBind seq s = .next t) :
    Memory.wf t.params t.seq = true := by
  simp only [execBind] at h
  split at h <;> simp at h
  subst h
  simpa [Memory.wf]

/-- A read gives the bits that the last BIND stored (R55). -/
theorem memRead_after_execBind {seq : Bits} {s t : State} (h : execBind seq s = .next t) : t.seq = seq ∧ t.pos = 0 := by
  simp only [execBind] at h
  split at h <;> simp at h
  subst h
  simp

/-- Bit `i` of a read is bit `i` behind the start of its field (R44). -/
theorem getElem?_memRead (s : State) (p n i : Nat) (hi : i < n) :
    (s.memRead p n)[i]? = s.seq[s.fieldStart p n + i]? := by
  simp [State.memRead, hi]

/-- Reading depends on `SEQ`, `ORIGIN` and the parameters alone (R52). -/
theorem readCore_congr {s s' : State} (h1 : s'.seq = s.seq) (h2 : s'.origin = s.origin) (h3 : s'.params = s.params)
    (dt : Dtype) (len : Option Nat) (p : Nat) : readCore s' dt len p = readCore s dt len p := by
  simp [readCore, State.memRead, State.fieldStart, h1, h2, h3]

theorem readEntries_congr {s s' : State} (h1 : s'.seq = s.seq) (h2 : s'.origin = s.origin) (h3 : s'.params = s.params)
    (plan : List Token) (j q : Nat) : readEntries s' j plan q = readEntries s j plan q := by
  induction plan generalizing j q with
  | nil => rfl
  | cons t ts ih => simp only [readEntries, readCore_congr h1 h2 h3, ih]

theorem readPlan_congr {s s' : State} (h1 : s'.seq = s.seq) (h2 : s'.origin = s.origin) (h3 : s'.params = s.params)
    (plan : List Token) (p : Nat) : readPlan s' plan p = readPlan s plan p := by
  simp [readPlan, readResolved, readEntries_congr h1 h2 h3, h1, h3]

end Sys2Proof.Machine
end

