-- ==== Sys2Proof/Laws/Exec.lean ====
section
/-! SUPPORT. Laws/Exec.lean: what a command and a step can do to the state, said once. -/

namespace Sys2Proof.Machine

/-- What a gated command can answer (R121). -/
theorem gated_conclude_eq_next {s t : State} {α} {r : Staged α} {k : α → State}
    (h : hazardGate s (conclude s r k) = .next t) :
    (t = s.raiseError (.originHazard .undefined) none ∧ s.fault = true) ∨
    (s.fault = false ∧ ∃ a, r = .ok a ∧ t = k a) ∨
    (s.fault = false ∧ ∃ e j, r = .raise e j ∧ t = s.raiseError e j) := by
  rw [hazardGate_eq_next] at h
  rcases h with ⟨h, rfl⟩ | ⟨h, hc⟩
  · exact .inl ⟨rfl, h⟩
  · rw [conclude_eq_next] at hc; rcases hc with hc | hc
    · exact .inr (.inl ⟨h, hc⟩)
    · exact .inr (.inr ⟨h, hc⟩)

/-- What a command that answers a next state has done: raised an error and changed nothing else (R153); replied and changed
nothing else; moved the cursor on (READ, READLIST); or written what SETPOS, SETORIGIN or BIND writes (R145 to R147). -/
theorem exec_effect {i : Instr} {s t : State} (h : exec i s = .next t) :
    (∃ e j, t = s.raiseError e j ∧ e ≠ .originHazard .switch) ∨
    (∃ r, t = s.respond r ∧
      ((∃ dt len v, i = Instr.enc dt len v) ∨ (∃ dt F, i = Instr.dec dt F) ∨ (∃ plan, i = .pack plan) ∨ i = .getpos ∨
      (∃ dt len, i = Instr.peek dt len) ∨ (∃ plan, i = .peeklist plan) ∨ ∃ plan, i = .unpack plan)) ∨
    (∃ r p, t = ({ s with pos := p }.respond r) ∧ s.pos ≤ p ∧ (s.pos ≤ s.seq.length → p ≤ s.seq.length) ∧
      ((∃ dt len, i = Instr.read dt len) ∨ (∃ plan, i = .readlist plan))) ∨
    (∃ p : Int, i = .setpos p ∧ 0 ≤ p ∧ p ≤ s.seq.length ∧ t = ({ s with pos := p.toNat }.respond .none)) ∨
    (∃ o, i = .setorigin o ∧
      ((o ≠ s.origin ∧ s.pos ≠ 0 ∧
          t = ({ s with origin := o }.setFault.raiseError (.originHazard .switch) none)) ∨
        (¬ (o ≠ s.origin ∧ s.pos ≠ 0) ∧ t = ({ s with origin := o }.respond .none)))) ∨
    (∃ q, i = .bind q ∧ s.params.within q.length = true ∧ t = ({ s with seq := q, pos := 0 }.respond .none)) := by
  have code : ∀ {e : Error} {l : List Nat}, e.code ∈ l → 7 ∉ l → e ≠ .originHazard .switch := by
    rintro e l h1 h2 rfl; exact h2 h1
  have encNe : ∀ {e : Error}, ((∃ c, e = .creation c) ∨ ∃ n, e = .byteAlign n) → e ≠ .originHazard .switch := by
    rintro e (⟨c, rfl⟩ | ⟨n, rfl⟩) <;> simp
  rcases instr_shapes i with
    ⟨dt, len, v, rfl⟩ | ⟨dt, F, rfl⟩ | ⟨dt, len, rfl⟩ | ⟨dt, len, rfl⟩ | ⟨p, rfl⟩ | ⟨p, rfl⟩ | ⟨p, rfl⟩ | ⟨p, rfl⟩ |
    ⟨p, rfl⟩ | ⟨o, rfl⟩ | ⟨q, rfl⟩ | rfl
  · rw [exec_enc, encCommand, conclude_eq_next] at h
    rcases h with ⟨a, -, rfl⟩ | ⟨e, j, hr, rfl⟩
    · exact .inr (.inl ⟨_, rfl, by simp⟩)
    · exact .inl ⟨_, _, rfl, encNe (encCore_raise hr).2⟩
  · rw [exec_dec, decCommand, conclude_eq_next] at h
    rcases h with ⟨a, -, rfl⟩ | ⟨e, j, hr, rfl⟩
    · exact .inr (.inl ⟨_, rfl, by simp⟩)
    · refine .inl ⟨_, _, rfl, ?_⟩
      rcases (decCore_raise hr).2 with rfl | rfl <;> simp
  · rw [exec_read, readCommand] at h
    rcases gated_conclude_eq_next h with ⟨rfl, -⟩ | ⟨-, a, ha, rfl⟩ | ⟨-, e, j, hr, rfl⟩
    · exact .inl ⟨_, _, rfl, by simp⟩
    · obtain ⟨h1, h2, -, -⟩ := readCore_eq_ok.mp ha
      exact .inr (.inr (.inl ⟨_, _, rfl, by omega, fun _ => h2, .inl ⟨_, _, rfl⟩⟩))
    · exact .inl ⟨_, _, rfl, code (readCore_raise hr).2 (by simp)⟩
  · rw [exec_peek, peekCommand] at h
    rcases gated_conclude_eq_next h with ⟨rfl, -⟩ | ⟨-, a, ha, rfl⟩ | ⟨-, e, j, hr, rfl⟩
    · exact .inl ⟨_, _, rfl, by simp⟩
    · exact .inr (.inl ⟨_, rfl, by simp⟩)
    · exact .inl ⟨_, _, rfl, code (readCore_raise hr).2 (by simp)⟩
  · simp only [exec, execReadlist] at h
    rcases gated_conclude_eq_next h with ⟨rfl, -⟩ | ⟨-, a, ha, rfl⟩ | ⟨-, e, j, hr, rfl⟩
    · exact .inl ⟨_, _, rfl, by simp⟩
    · obtain ⟨h1, h2, h3⟩ := readPlan_ok ha
      exact .inr (.inr (.inl ⟨_, _, rfl, h2, h3, .inr ⟨_, rfl⟩⟩))
    · exact .inl ⟨_, _, rfl, code (readPlan_raise hr).2 (by simp)⟩
  · simp only [exec, execPeeklist] at h
    rcases gated_conclude_eq_next h with ⟨rfl, -⟩ | ⟨-, a, ha, rfl⟩ | ⟨-, e, j, hr, rfl⟩
    · exact .inl ⟨_, _, rfl, by simp⟩
    · exact .inr (.inl ⟨_, rfl, by simp⟩)
    · exact .inl ⟨_, _, rfl, code (readPlan_raise hr).2 (by simp)⟩
  · simp only [exec, execUnpack] at h
    rcases gated_conclude_eq_next h with ⟨rfl, -⟩ | ⟨-, a, ha, rfl⟩ | ⟨-, e, j, hr, rfl⟩
    · exact .inl ⟨_, _, rfl, by simp⟩
    · exact .inr (.inl ⟨_, rfl, by simp⟩)
    · exact .inl ⟨_, _, rfl, code (readPlan_raise hr).2 (by simp)⟩
  · simp only [exec, execPack, conclude_eq_next] at h
    rcases h with ⟨a, -, rfl⟩ | ⟨e, j, hr, rfl⟩
    · exact .inr (.inl ⟨_, rfl, by simp⟩)
    · exact .inl ⟨_, _, rfl, code (packCore_raise hr).2 (by simp)⟩
  · simp only [exec, execSetpos] at h
    split at h <;> simp at h <;> subst h
    · exact .inr (.inr (.inr (.inl ⟨p, rfl, by tauto, by tauto, rfl⟩)))
    · exact .inl ⟨_, _, rfl, by simp⟩
  · simp only [exec, execSetorigin] at h
    split at h <;> simp only [Host.Outcome.next.injEq] at h <;> subst h
    · rename_i hc; exact .inr (.inr (.inr (.inr (.inl ⟨o, rfl, .inl ⟨hc.1, hc.2, rfl⟩⟩))))
    · rename_i hc; exact .inr (.inr (.inr (.inr (.inl ⟨o, rfl, .inr ⟨hc, rfl⟩⟩))))
  · simp only [exec, execBind] at h
    split at h <;> simp at h
    subst h; rename_i hc
    exact .inr (.inr (.inr (.inr (.inr ⟨q, rfl, hc, rfl⟩))))
  · simp only [exec, execGetpos, Host.Outcome.next.injEq] at h
    exact .inr (.inl ⟨_, h.symm, by simp⟩)

/-- What a step that answers a next state has done. -/
theorem step_effect {s s' : State} (h : step s = .next s') :
    (s.port = [] ∧ s' = s) ∨
    ∃ t ts, s.port = t :: ts ∧
      ((∃ c, s' = ({ s with port := ts }.raiseError (.illegalCommand c) none)) ∨
        ∃ i, decode t = .ok i ∧ exec i { s with port := ts } = .next s') := by
  cases hp : s.port with
  | nil => simp [step, State.takeTransaction_nil hp] at h; exact .inl ⟨rfl, h.symm⟩
  | cons t ts =>
    right; refine ⟨t, ts, rfl, ?_⟩
    simp only [step, State.takeTransaction_cons hp] at h
    cases hd : decode t with
    | ok i => rw [hd] at h; exact .inr ⟨i, rfl, h⟩
    | error e =>
      rw [hd] at h
      cases e <;> simp [rejectTransaction] at h
      exact .inl ⟨_, h.symm⟩

end Sys2Proof.Machine
end

