-- ==== Sys2Proof/Laws/PerInstr.lean ====
section
/-! SUPPORT. Laws/PerInstr.lean: statements about every command as syntax, one lemma a constructor. -/

namespace Sys2Proof.Laws.OpcodeMap

/-- The command word of the opcode map (R71) is read by the field layouts of R61 to R64 as the command it stands for: the
decoder's `Op` of the word gives the command back from any record that the command has. -/
def Statement (i : Instr) : Prop :=
  ∃ op, decodeOp i.cmd = some op ∧ decodeRecord i.cmd op i.record ≠ .error (.recordFormat i.cmd)

theorem encUint (len : Option Nat) (val : Int) : Statement (.encUint len val) :=
  ⟨.enc ⟨.unsigned, .bit⟩, by simp only [Instr.cmd]; decide, by simp [Instr.record, decodeRecord]⟩

theorem encUintbe (len : Option Nat) (val : Int) : Statement (.encUintbe len val) :=
  ⟨.enc ⟨.unsigned, .be⟩, by simp only [Instr.cmd]; decide, by simp [Instr.record, decodeRecord]⟩

theorem encUintle (len : Option Nat) (val : Int) : Statement (.encUintle len val) :=
  ⟨.enc ⟨.unsigned, .le⟩, by simp only [Instr.cmd]; decide, by simp [Instr.record, decodeRecord]⟩

theorem encUintne (len : Option Nat) (val : Int) : Statement (.encUintne len val) :=
  ⟨.enc ⟨.unsigned, .ne⟩, by simp only [Instr.cmd]; decide, by simp [Instr.record, decodeRecord]⟩

theorem encInt (len : Option Nat) (val : Int) : Statement (.encInt len val) :=
  ⟨.enc ⟨.signed, .bit⟩, by simp only [Instr.cmd]; decide, by simp [Instr.record, decodeRecord]⟩

theorem encIntbe (len : Option Nat) (val : Int) : Statement (.encIntbe len val) :=
  ⟨.enc ⟨.signed, .be⟩, by simp only [Instr.cmd]; decide, by simp [Instr.record, decodeRecord]⟩

theorem encIntle (len : Option Nat) (val : Int) : Statement (.encIntle len val) :=
  ⟨.enc ⟨.signed, .le⟩, by simp only [Instr.cmd]; decide, by simp [Instr.record, decodeRecord]⟩

theorem encIntne (len : Option Nat) (val : Int) : Statement (.encIntne len val) :=
  ⟨.enc ⟨.signed, .ne⟩, by simp only [Instr.cmd]; decide, by simp [Instr.record, decodeRecord]⟩

theorem decUint (fld : Bits) : Statement (.decUint fld) :=
  ⟨.dec ⟨.unsigned, .bit⟩, by simp only [Instr.cmd]; decide, by simp [Instr.record, decodeRecord]⟩

theorem decUintbe (fld : Bits) : Statement (.decUintbe fld) :=
  ⟨.dec ⟨.unsigned, .be⟩, by simp only [Instr.cmd]; decide, by simp [Instr.record, decodeRecord]⟩

theorem decUintle (fld : Bits) : Statement (.decUintle fld) :=
  ⟨.dec ⟨.unsigned, .le⟩, by simp only [Instr.cmd]; decide, by simp [Instr.record, decodeRecord]⟩

theorem decUintne (fld : Bits) : Statement (.decUintne fld) :=
  ⟨.dec ⟨.unsigned, .ne⟩, by simp only [Instr.cmd]; decide, by simp [Instr.record, decodeRecord]⟩

theorem decInt (fld : Bits) : Statement (.decInt fld) :=
  ⟨.dec ⟨.signed, .bit⟩, by simp only [Instr.cmd]; decide, by simp [Instr.record, decodeRecord]⟩

theorem decIntbe (fld : Bits) : Statement (.decIntbe fld) :=
  ⟨.dec ⟨.signed, .be⟩, by simp only [Instr.cmd]; decide, by simp [Instr.record, decodeRecord]⟩

theorem decIntle (fld : Bits) : Statement (.decIntle fld) :=
  ⟨.dec ⟨.signed, .le⟩, by simp only [Instr.cmd]; decide, by simp [Instr.record, decodeRecord]⟩

theorem decIntne (fld : Bits) : Statement (.decIntne fld) :=
  ⟨.dec ⟨.signed, .ne⟩, by simp only [Instr.cmd]; decide, by simp [Instr.record, decodeRecord]⟩

theorem readUint (len : Option Nat) : Statement (.readUint len) :=
  ⟨.read ⟨.unsigned, .bit⟩, by simp only [Instr.cmd]; decide, by simp [Instr.record, decodeRecord]⟩

theorem readUintbe (len : Option Nat) : Statement (.readUintbe len) :=
  ⟨.read ⟨.unsigned, .be⟩, by simp only [Instr.cmd]; decide, by simp [Instr.record, decodeRecord]⟩

theorem readUintle (len : Option Nat) : Statement (.readUintle len) :=
  ⟨.read ⟨.unsigned, .le⟩, by simp only [Instr.cmd]; decide, by simp [Instr.record, decodeRecord]⟩

theorem readUintne (len : Option Nat) : Statement (.readUintne len) :=
  ⟨.read ⟨.unsigned, .ne⟩, by simp only [Instr.cmd]; decide, by simp [Instr.record, decodeRecord]⟩

theorem readInt (len : Option Nat) : Statement (.readInt len) :=
  ⟨.read ⟨.signed, .bit⟩, by simp only [Instr.cmd]; decide, by simp [Instr.record, decodeRecord]⟩

theorem readIntbe (len : Option Nat) : Statement (.readIntbe len) :=
  ⟨.read ⟨.signed, .be⟩, by simp only [Instr.cmd]; decide, by simp [Instr.record, decodeRecord]⟩

theorem readIntle (len : Option Nat) : Statement (.readIntle len) :=
  ⟨.read ⟨.signed, .le⟩, by simp only [Instr.cmd]; decide, by simp [Instr.record, decodeRecord]⟩

theorem readIntne (len : Option Nat) : Statement (.readIntne len) :=
  ⟨.read ⟨.signed, .ne⟩, by simp only [Instr.cmd]; decide, by simp [Instr.record, decodeRecord]⟩

theorem peekUint (len : Option Nat) : Statement (.peekUint len) :=
  ⟨.peek ⟨.unsigned, .bit⟩, by simp only [Instr.cmd]; decide, by simp [Instr.record, decodeRecord]⟩

theorem peekUintbe (len : Option Nat) : Statement (.peekUintbe len) :=
  ⟨.peek ⟨.unsigned, .be⟩, by simp only [Instr.cmd]; decide, by simp [Instr.record, decodeRecord]⟩

theorem peekUintle (len : Option Nat) : Statement (.peekUintle len) :=
  ⟨.peek ⟨.unsigned, .le⟩, by simp only [Instr.cmd]; decide, by simp [Instr.record, decodeRecord]⟩

theorem peekUintne (len : Option Nat) : Statement (.peekUintne len) :=
  ⟨.peek ⟨.unsigned, .ne⟩, by simp only [Instr.cmd]; decide, by simp [Instr.record, decodeRecord]⟩

theorem peekInt (len : Option Nat) : Statement (.peekInt len) :=
  ⟨.peek ⟨.signed, .bit⟩, by simp only [Instr.cmd]; decide, by simp [Instr.record, decodeRecord]⟩

theorem peekIntbe (len : Option Nat) : Statement (.peekIntbe len) :=
  ⟨.peek ⟨.signed, .be⟩, by simp only [Instr.cmd]; decide, by simp [Instr.record, decodeRecord]⟩

theorem peekIntle (len : Option Nat) : Statement (.peekIntle len) :=
  ⟨.peek ⟨.signed, .le⟩, by simp only [Instr.cmd]; decide, by simp [Instr.record, decodeRecord]⟩

theorem peekIntne (len : Option Nat) : Statement (.peekIntne len) :=
  ⟨.peek ⟨.signed, .ne⟩, by simp only [Instr.cmd]; decide, by simp [Instr.record, decodeRecord]⟩

theorem readlist (plan : List Token) : Statement (.readlist plan) :=
  ⟨.readlist, by simp only [Instr.cmd]; decide, by simp [Instr.record, decodeRecord, planOrIllegal]; split <;> simp⟩

theorem peeklist (plan : List Token) : Statement (.peeklist plan) :=
  ⟨.peeklist, by simp only [Instr.cmd]; decide, by simp [Instr.record, decodeRecord, planOrIllegal]; split <;> simp⟩

theorem unpack (plan : List Token) : Statement (.unpack plan) :=
  ⟨.unpack, by simp only [Instr.cmd]; decide, by simp [Instr.record, decodeRecord, planOrIllegal]; split <;> simp⟩

theorem pack (plan : List (Token × Int)) : Statement (.pack plan) :=
  ⟨.pack, by simp only [Instr.cmd]; decide, by simp [Instr.record, decodeRecord, planOrIllegal]; split <;> simp⟩

theorem setpos (p : Int) : Statement (.setpos p) :=
  ⟨.setpos, by simp only [Instr.cmd]; decide, by simp [Instr.record, decodeRecord]⟩

theorem setorigin (o : Origin) : Statement (.setorigin o) :=
  ⟨.setorigin, by simp only [Instr.cmd]; decide, by simp [Instr.record, decodeRecord]⟩

theorem bind (seq : Bits) : Statement (.bind seq) :=
  ⟨.bind, by simp only [Instr.cmd]; decide, by simp [Instr.record, decodeRecord]⟩

theorem getpos : Statement (.getpos) :=
  ⟨.getpos, by simp only [Instr.cmd]; decide, by simp [Instr.record, decodeRecord]⟩

end Sys2Proof.Laws.OpcodeMap
end

