-- ==== Sys2Proof/Laws/Text.lean ====
section
/-! SUPPORT. Laws/Text.lean: numbers in text: what is spelled is read back (R73). -/

namespace Sys2Proof.Machine

/-- The text does not go on with a digit. -/
def NoDigit (rest : Text) : Prop := ∀ c cs, rest = c :: cs → c.isDigit = false

/-- What the reader asks of a spelled digit. -/
theorem digit_ofNat : ∀ d < 10,
    (Char.ofNat (48 + d)).isDigit = true ∧ digitVal (Char.ofNat (48 + d)) = d ∧
    (Char.ofNat (48 + d)).isLower = false ∧ Char.ofNat (48 + d) ≠ ':' ∧ Char.ofNat (48 + d) ≠ '-' := by
  decide +kernel

theorem mem_spellDigits (f n : Nat) : ∀ c ∈ spellDigits f n, ∃ d < 10, c = Char.ofNat (48 + d) := by
  induction f generalizing n with
  | zero => simp [spellDigits]
  | succ f ih =>
    intro c hc
    simp only [spellDigits] at hc
    split at hc
    · simp at hc; exact ⟨n, by assumption, hc⟩
    · rcases List.mem_append.mp hc with h | h
      · exact ih _ c h
      · simp at h; exact ⟨n % 10, by omega, h⟩

theorem spellDigits_ne_nil (f n : Nat) (h : n < f) : spellDigits f n ≠ [] := by
  cases f with
  | zero => omega
  | succ f => simp only [spellDigits]; split <;> simp

theorem readDigits_end (acc : Nat) (rest : Text) (h : NoDigit rest) : readDigits acc rest = (acc, rest) := by
  cases rest with
  | nil => rfl
  | cons c cs => simp [readDigits, h c cs rfl]

theorem readDigits_spellDigits (f n : Nat) (h : n < f) (rest : Text) (acc : Nat) :
    ∃ k, readDigits acc (spellDigits f n ++ rest) = readDigits (acc * 10 ^ k + n) rest := by
  induction f generalizing n rest acc with
  | zero => omega
  | succ f ih =>
    simp only [spellDigits]
    split
    · rename_i hn
      obtain ⟨h1, h2, -⟩ := digit_ofNat n hn
      exact ⟨1, by simp [readDigits, h1, h2]; congr 1; omega⟩
    · rename_i hn
      obtain ⟨h1, h2, -⟩ := digit_ofNat (n % 10) (by omega)
      obtain ⟨k, hk⟩ := ih (n / 10) (by omega) (Char.ofNat (48 + n % 10) :: rest) acc
      refine ⟨k + 1, ?_⟩
      rw [List.append_assoc, List.singleton_append, hk]
      rw [readDigits, if_pos h1, h2]
      congr 1
      have : acc * 10 ^ (k + 1) = 10 * (acc * 10 ^ k) := by ring
      rw [this]; generalize acc * 10 ^ k = x; omega

/-- A spelled number is read back. -/
theorem readNat_spellNat (n : Nat) (rest : Text) (h : NoDigit rest) :
    readNat (spellNat n ++ rest) = some (n, rest) := by
  have hne := spellDigits_ne_nil (n + 1) n (by omega)
  have hd := mem_spellDigits (n + 1) n
  obtain ⟨k, hk⟩ := readDigits_spellDigits (n + 1) n (by omega) rest 0
  rw [readDigits_end _ _ h] at hk
  unfold spellNat
  cases hs : spellDigits (n + 1) n with
  | nil => exact absurd hs hne
  | cons c cs =>
    obtain ⟨d, hd1, hd2⟩ := hd c (by simp [hs])
    rw [hs] at hk
    simp only [List.cons_append] at hk ⊢
    simp only [readNat]
    rw [hd2, (digit_ofNat d hd1).1, ← hd2, hk]; simp

end Sys2Proof.Machine
end

