-- ==== Sys2Proof/Laws/Values.lean ====
section
/-! SUPPORT. Laws/Values.lean: values and fields: what the two pipelines' middle stages undo of each other, and `uval` of a field that
is put together. -/

namespace Sys2Proof.Machine

/-- The bits of a field of whole bytes, byte by byte (R10). -/
theorem getElem?_flatten_bytes (Bs : List Bits) (h : ∀ B ∈ Bs, B.length = 8) (j t : Nat) (ht : t < 8)
    (hj : j < Bs.length) : Bs.flatten[8 * j + t]? = Bs[j]?.bind (·[t]?) := by
  induction Bs generalizing j with
  | nil => simp at hj
  | cons B Bs ih =>
    have hB := h B (by simp)
    cases j with
    | zero => simp; rw [List.getElem?_append_left (by omega)]
    | succ j =>
      simp only [List.flatten_cons, List.getElem?_cons_succ]
      rw [List.getElem?_append_right (by omega)]
      rw [← ih (fun C hC => h C (by simp [hC])) j (by simpa using hj)]
      congr 1; omega

/-- The value of the field of a value in range is the value (R81 to R83, R101, R102). -/
theorem fieldValue_msbfirst (sg : Sign) (n : Nat) (v : Int) (h0 : n ≠ 0) (hr : inRange sg n v = true) :
    fieldValue sg (msbfirst n (v % 2 ^ n).toNat) = v := by
  obtain ⟨m, rfl⟩ : ∃ m, n = m + 1 := ⟨n - 1, by omega⟩
  have hp : (0:Int) < 2 ^ m := by positivity
  have hmod : ((v % 2 ^ (m + 1)).toNat : Int) = v % 2 ^ (m + 1) := Int.toNat_of_nonneg (Int.emod_nonneg _ (by positivity))
  have hlt : (v % 2 ^ (m + 1)) < 2 ^ (m + 1) := Int.emod_lt_of_pos _ (by positivity)
  have hu : uval (msbfirst (m + 1) (v % 2 ^ (m + 1)).toNat) = (v % 2 ^ (m + 1)).toNat := by
    rw [uval_msbfirst, Nat.mod_eq_of_lt]
    zify; rw [hmod]; exact hlt
  cases sg with
  | unsigned =>
    rw [inRange] at hr
    simp only [decide_eq_true_eq] at hr
    simp only [fieldValue, hu, hmod]
    exact Int.emod_eq_of_lt hr.1 (by omega)
  | signed =>
    rw [inRange] at hr
    simp only [decide_eq_true_eq, Nat.add_sub_cancel] at hr
    simp only [fieldValue, length_msbfirst]
    have hhd : (msbfirst (m + 1) (v % 2 ^ (m + 1)).toNat).headD false =
        (v % 2 ^ (m + 1)).toNat.testBit m := rfl
    rw [hhd, hu, hmod, Nat.testBit_eq_decide_div_mod_eq]
    have hpw : (2:Int)^(m + 1) = 2 * 2 ^ m := by ring
    by_cases hv : 0 ≤ v
    · have he : v % 2 ^ (m + 1) = v := Int.emod_eq_of_lt hv (by omega)
      rw [he]
      have : v.toNat / 2 ^ m = 0 := by
        apply Nat.div_eq_of_lt; zify; rw [Int.toNat_of_nonneg hv]; omega
      simp [this]
    · have he : v % 2 ^ (m + 1) = v + 2 ^ (m + 1) := by
        rw [← Int.add_emod_right, Int.emod_eq_of_lt (by omega) (by omega)]
      rw [he]
      have : (v + 2 ^ (m + 1)).toNat / 2 ^ m = 1 := by
        apply Nat.div_eq_of_lt_le
        · zify; rw [Int.toNat_of_nonneg (by omega)]; omega
        · zify; rw [Int.toNat_of_nonneg (by omega)]; omega
      simp [this]

/-- The field of the value of a field is the field (R83, R101, R102). -/
theorem msbfirst_fieldValue (sg : Sign) (G : Bits) :
    msbfirst G.length (fieldValue sg G % 2 ^ G.length).toNat = G := by
  have hu : (uval G : Int) < 2 ^ G.length := by exact_mod_cast uval_lt G
  have : fieldValue sg G % 2 ^ G.length = uval G := by
    cases sg
    · simp only [fieldValue]; exact Int.emod_eq_of_lt (by omega) hu
    · simp only [fieldValue]; split
      · rw [Int.sub_emod_right]; exact Int.emod_eq_of_lt (by omega) hu
      · exact Int.emod_eq_of_lt (by omega) hu
  rw [this]; simp [msbfirst_uval]

/-- `uval` of a concatenation (R8). -/
theorem uval_append (F G : Bits) : uval (F ++ G) = uval F * 2 ^ G.length + uval G := by
  induction F with
  | nil => simp [uval]
  | cons b F ih => simp [uval, ih, pow_add]; ring

theorem uval_replicate_false (k : Nat) : uval (List.replicate k false) = 0 := by
  induction k with
  | zero => rfl
  | succ k ih => simp [List.replicate_succ, uval, ih]

theorem uval_replicate_true (k : Nat) : uval (List.replicate k true) + 1 = 2 ^ k := by
  induction k with
  | zero => rfl
  | succ k ih => simp [List.replicate_succ, uval, pow_succ]; omega

end Sys2Proof.Machine
end

