-- ==== Sys2Proof/Tests/Slice0.lean ====
section
/-! SUPPORT. Tests/Slice0.lean: the model's own tests. The words are written out from the opcode map and the field layouts (R61 to
R71), the expected results are rows of spec/95_test_vectors.md (by its vector's name where it has one). The `witness_` theorems
show that the hypotheses of the statements can be met, clause by clause. -/

namespace Sys2Proof.Tests

open Sys2Proof Sys2Proof.Machine

/-! ## Helpers -/

/-- The bits of a hexadecimal digit, a table of the tests' own (R13). -/
def nibble : Nat → Bits
  | 0  => [false, false, false, false]
  | 1  => [false, false, false, true]
  | 2  => [false, false, true, false]
  | 3  => [false, false, true, true]
  | 4  => [false, true, false, false]
  | 5  => [false, true, false, true]
  | 6  => [false, true, true, false]
  | 7  => [false, true, true, true]
  | 8  => [true, false, false, false]
  | 9  => [true, false, false, true]
  | 10 => [true, false, true, false]
  | 11 => [true, false, true, true]
  | 12 => [true, true, false, false]
  | 13 => [true, true, false, true]
  | 14 => [true, true, true, false]
  | _  => [true, true, true, true]

/-- The field of a list of hexadecimal digits. -/
def hex (ds : List Nat) : Bits := ds.flatMap nibble

def big : Params := ⟨.big, none⟩
def little : Params := ⟨.little, none⟩
/-- An instance with `MAX_LEN` = 16. -/
def small : Params := ⟨.big, some 16⟩

/-- A state with a sequence, a cursor and an origin. -/
def st (prm : Params) (seq : Bits) (pos : Nat) (o : Origin) : State :=
  { State.resetOf prm with seq := seq, pos := pos, origin := o }

/-- `SEQ = 0x1234`, MSB0, the cursor at `p`, host BIG. -/
def at1234 (p : Nat) : State := st big (hex [1, 2, 3, 4]) p .msb0

/-- The same in LSB0. -/
def lsb1234 (p : Nat) : State := st big (hex [1, 2, 3, 4]) p .lsb0

/-- What a test looks at: the reply, the cursor and the hazard flag of the next state. -/
def answer (o : Outcome) : Option (Option Reply × Nat × Bool) :=
  match o with
  | .next s    => some (s.reply, s.pos, s.fault)
  | .fault _   => none
  | .refused _ => none

def gives (r : Result) (p : Nat) : Option (Option Reply × Nat × Bool) := some (some (.ok r), p, false)
def fails (e : Error) (j : Option Nat) (p : Nat) : Option (Option Reply × Nat × Bool) := some (some (.err e j), p, false)

def uint : Dtype := ⟨.unsigned, .bit⟩
def uintbe : Dtype := ⟨.unsigned, .be⟩
def uintle : Dtype := ⟨.unsigned, .le⟩
def int : Dtype := ⟨.signed, .bit⟩
def intle : Dtype := ⟨.signed, .le⟩

/-! ## Decoding: the words of R71, bit by bit -/

theorem test_decode_enc_words :
    decode ⟨0b00000000#8, .cEnc (some 8) 5⟩ = .ok (.encUint (some 8) 5) ∧
    decode ⟨0b00000100#8, .cEnc (some 8) 5⟩ = .ok (.encUintbe (some 8) 5) ∧
    decode ⟨0b00001000#8, .cEnc (some 8) 5⟩ = .ok (.encUintle (some 8) 5) ∧
    decode ⟨0b00001100#8, .cEnc (some 8) 5⟩ = .ok (.encUintne (some 8) 5) ∧
    decode ⟨0b00010000#8, .cEnc (some 8) 5⟩ = .ok (.encInt (some 8) 5) ∧
    decode ⟨0b00010100#8, .cEnc (some 8) 5⟩ = .ok (.encIntbe (some 8) 5) ∧
    decode ⟨0b00011000#8, .cEnc (some 8) 5⟩ = .ok (.encIntle (some 8) 5) ∧
    decode ⟨0b00011100#8, .cEnc none (-5)⟩ = .ok (.encIntne none (-5)) := by
  refine ⟨rfl, rfl, rfl, rfl, rfl, rfl, rfl, rfl⟩

theorem test_decode_dec_words :
    decode ⟨0b00100000#8, .cDec [true]⟩ = .ok (.decUint [true]) ∧
    decode ⟨0b00100100#8, .cDec [true]⟩ = .ok (.decUintbe [true]) ∧
    decode ⟨0b00101000#8, .cDec [true]⟩ = .ok (.decUintle [true]) ∧
    decode ⟨0b00101100#8, .cDec [true]⟩ = .ok (.decUintne [true]) ∧
    decode ⟨0b00110000#8, .cDec [true]⟩ = .ok (.decInt [true]) ∧
    decode ⟨0b00110100#8, .cDec [true]⟩ = .ok (.decIntbe [true]) ∧
    decode ⟨0b00111000#8, .cDec [true]⟩ = .ok (.decIntle [true]) ∧
    decode ⟨0b00111100#8, .cDec []⟩ = .ok (.decIntne []) := by
  refine ⟨rfl, rfl, rfl, rfl, rfl, rfl, rfl, rfl⟩

theorem test_decode_read_words :
    decode ⟨0b01000000#8, .sTok (some 9)⟩ = .ok (.readUint (some 9)) ∧
    decode ⟨0b01000001#8, .sTok (some 9)⟩ = .ok (.readUintbe (some 9)) ∧
    decode ⟨0b01000010#8, .sTok (some 9)⟩ = .ok (.readUintle (some 9)) ∧
    decode ⟨0b01000011#8, .sTok (some 9)⟩ = .ok (.readUintne (some 9)) ∧
    decode ⟨0b01000100#8, .sTok (some 9)⟩ = .ok (.readInt (some 9)) ∧
    decode ⟨0b01000101#8, .sTok (some 9)⟩ = .ok (.readIntbe (some 9)) ∧
    decode ⟨0b01000110#8, .sTok (some 9)⟩ = .ok (.readIntle (some 9)) ∧
    decode ⟨0b01000111#8, .sTok none⟩ = .ok (.readIntne none) := by
  refine ⟨rfl, rfl, rfl, rfl, rfl, rfl, rfl, rfl⟩

theorem test_decode_peek_words :
    decode ⟨0b01001000#8, .sTok (some 9)⟩ = .ok (.peekUint (some 9)) ∧
    decode ⟨0b01001001#8, .sTok (some 9)⟩ = .ok (.peekUintbe (some 9)) ∧
    decode ⟨0b01001010#8, .sTok (some 9)⟩ = .ok (.peekUintle (some 9)) ∧
    decode ⟨0b01001011#8, .sTok (some 9)⟩ = .ok (.peekUintne (some 9)) ∧
    decode ⟨0b01001100#8, .sTok (some 9)⟩ = .ok (.peekInt (some 9)) ∧
    decode ⟨0b01001101#8, .sTok (some 9)⟩ = .ok (.peekIntbe (some 9)) ∧
    decode ⟨0b01001110#8, .sTok (some 9)⟩ = .ok (.peekIntle (some 9)) ∧
    decode ⟨0b01001111#8, .sTok none⟩ = .ok (.peekIntne none) := by
  refine ⟨rfl, rfl, rfl, rfl, rfl, rfl, rfl, rfl⟩

theorem test_decode_plan_words :
    decode ⟨0b01010000#8, .sPlan [⟨0b00000110#8, some 16⟩]⟩ = .ok (.readlist [⟨intle, some 16⟩]) ∧
    decode ⟨0b01011000#8, .sPlan [⟨0b00000001#8, none⟩]⟩ = .ok (.peeklist [⟨uintbe, none⟩]) ∧
    decode ⟨0b01100000#8, .sPlan [⟨0b00000100#8, some 3⟩]⟩ = .ok (.unpack [⟨int, some 3⟩]) ∧
    decode ⟨0b01101000#8, .sPack [(⟨0b00000010#8, some 8⟩, 7)]⟩ = .ok (.pack [(⟨uintle, some 8⟩, 7)]) := by
  refine ⟨rfl, rfl, rfl, rfl⟩

theorem test_decode_control_words :
    decode ⟨0b10000000#8, .kPos 7⟩ = .ok (.setpos 7) ∧
    decode ⟨0b10000001#8, .kOrg true⟩ = .ok (.setorigin .lsb0) ∧
    decode ⟨0b10000010#8, .kBind [true]⟩ = .ok (.bind [true]) ∧
    decode ⟨0b10000011#8, .kNone⟩ = .ok .getpos := by
  refine ⟨rfl, rfl, rfl, rfl⟩

/-- V-IL: reserved words and a token code with a bit of `TK[7:3]` set. -/
theorem test_decode_illegal :
    decode ⟨0x01#8, .cEnc none 0⟩ = .error (.illegalCommand 0x01#8) ∧
    decode ⟨0x51#8, .sPlan []⟩ = .error (.illegalCommand 0x51#8) ∧
    decode ⟨0x84#8, .kNone⟩ = .error (.illegalCommand 0x84#8) ∧
    decode ⟨0xC0#8, .kNone⟩ = .error (.illegalCommand 0xC0#8) ∧
    decode ⟨0x50#8, .sPlan [⟨0x08#8, some 4⟩]⟩ = .error (.illegalCommand 0x50#8) := by
  refine ⟨rfl, rfl, rfl, rfl, rfl⟩

/-- A record that is not of the format the command word selects (log 7). -/
theorem test_decode_record_format : decode ⟨0x00#8, .kNone⟩ = .error (.recordFormat 0x00#8) := rfl

/-- A table word comes with a record of zeros; a word of other than 8 bits is none. -/
theorem test_decode_table_word :
    decodeTableWord 8 0x83 = some .getpos ∧ decodeTableWord 8 0x50 = some (.readlist []) ∧
    decodeTableWord 8 0xC0 = none ∧ decodeTableWord 16 0x83 = none := by decide

/-! ## WellFormed refuses an ill-formed command, one for each check -/

theorem test_wf_enc_length : (Instr.encUint (some 17) 0).wellFormed small = false := by decide
theorem test_wf_dec_field : (Instr.decInt (List.replicate 17 true)).wellFormed small = false := by decide
theorem test_wf_pack_entry : (Instr.pack [(⟨uint, some 17⟩, 0)]).wellFormed small = false := by decide
theorem test_wf_pack_total :
    (Instr.pack [(⟨uint, some 9⟩, 0), (⟨uint, some 8⟩, 0)]).wellFormed small = false := by decide
theorem test_wf_read_plan_total :
    (Instr.readlist [⟨uint, some 9⟩, ⟨uint, some 8⟩]).wellFormed small = false ∧
    (Instr.peeklist [⟨uint, none⟩, ⟨uint, some 17⟩]).wellFormed small = false ∧
    (Instr.unpack [⟨uint, some 17⟩]).wellFormed small = false := by decide
theorem test_wf_bind : (Instr.bind (List.replicate 17 true)).wellFormed small = false := by decide
theorem test_wf_at_the_limit :
    (Instr.encUint (some 16) 0).wellFormed small = true ∧
    (Instr.readlist [⟨uint, some 8⟩, ⟨uint, some 8⟩]).wellFormed small = true ∧
    (Instr.pack [(⟨uint, some 8⟩, 0), (⟨uint, some 8⟩, 0)]).wellFormed small = true := by decide

/-! ## ENC (vectors of section 2.1) -/

theorem test_enc_uint : answer (exec (.encUint (some 12) 352) (at1234 0)) = gives (.field (hex [1, 6, 0])) 0 := by decide
theorem test_enc_uintbe :
    answer (exec (.encUintbe (some 16) 4660) (at1234 0)) = gives (.field (hex [1, 2, 3, 4])) 0 := by decide
theorem test_enc_uintle :
    answer (exec (.encUintle (some 16) 4660) (at1234 0)) = gives (.field (hex [3, 4, 1, 2])) 0 := by decide
theorem test_enc_uintne :
    answer (exec (.encUintne (some 16) 4660) (st big [] 0 .msb0)) = gives (.field (hex [1, 2, 3, 4])) 0 ∧
    answer (exec (.encUintne (some 16) 4660) (st little [] 0 .msb0)) = gives (.field (hex [3, 4, 1, 2])) 0 := by decide
theorem test_enc_int : answer (exec (.encInt (some 8) (-128)) (at1234 0)) = gives (.field (hex [8, 0])) 0 := by decide
theorem test_enc_intbe :
    answer (exec (.encIntbe (some 16) (-2)) (at1234 0)) = gives (.field (hex [15, 15, 15, 14])) 0 := by decide
theorem test_enc_intle :
    answer (exec (.encIntle (some 16) (-256)) (at1234 0)) = gives (.field (hex [0, 0, 15, 15])) 0 := by decide
theorem test_enc_intne :
    answer (exec (.encIntne (some 24) (-8388608)) (st big [] 0 .msb0)) = gives (.field (hex [8, 0, 0, 0, 0, 0])) 0 ∧
    answer (exec (.encIntne (some 24) (-8388608)) (st little [] 0 .msb0)) = gives (.field (hex [0, 0, 0, 0, 8, 0])) 0 := by
  decide

/-- The order of the checks: E1 before E4, E3 before E4. -/
theorem test_enc_uint_missing_length :
    answer (exec (.encUint none (-5)) (at1234 0)) = fails (.creation .missingLength) none 0 := by decide
theorem test_enc_uintle_byte_align :
    answer (exec (.encUintle (some 12) 99999) (at1234 0)) = fails (.byteAlign 12) none 0 := by decide
theorem test_enc_uintbe_out_of_range :
    answer (exec (.encUintbe (some 8) 256) (at1234 0)) = fails (.creation .outOfRange) none 0 := by decide
theorem test_enc_int_out_of_range :
    answer (exec (.encInt (some 8) (-129)) (at1234 0)) = fails (.creation .outOfRange) none 0 := by decide

/-! ## DEC (vectors of section 2.2) -/

theorem test_dec_uint : answer (exec (.decUint (hex [1, 6, 0])) (at1234 0)) = gives (.int 352) 0 := by decide
theorem test_dec_uintbe : answer (exec (.decUintbe (hex [1, 2, 3, 4])) (at1234 0)) = gives (.int 4660) 0 := by decide
theorem test_dec_uintle :
    answer (exec (.decUintle (hex [5, 6, 3, 4, 1, 2])) (at1234 0)) = gives (.int 1193046) 0 := by decide
theorem test_dec_uintne :
    answer (exec (.decUintne (hex [3, 4, 1, 2])) (st big [] 0 .msb0)) = gives (.int 13330) 0 ∧
    answer (exec (.decUintne (hex [3, 4, 1, 2])) (st little [] 0 .msb0)) = gives (.int 4660) 0 := by decide
theorem test_dec_int : answer (exec (.decInt (nibble 13)) (at1234 0)) = gives (.int (-3)) 0 := by decide
theorem test_dec_intbe : answer (exec (.decIntbe (hex [8, 0, 0, 0])) (at1234 0)) = gives (.int (-32768)) 0 := by decide
theorem test_dec_intle : answer (exec (.decIntle (hex [15, 15, 0, 0])) (at1234 0)) = gives (.int 255) 0 := by decide
theorem test_dec_intne :
    answer (exec (.decIntne (hex [0, 0, 8, 0])) (st big [] 0 .msb0)) = gives (.int 128) 0 ∧
    answer (exec (.decIntne (hex [0, 0, 8, 0])) (st little [] 0 .msb0)) = gives (.int (-32768)) 0 := by decide
theorem test_dec_int_zero_length : answer (exec (.decInt []) (at1234 0)) = fails .interpretZeroLength none 0 := by decide
theorem test_dec_intle_byte_align :
    answer (exec (.decIntle (hex [15, 15, 15])) (at1234 0)) = fails (.byteAlign 12) none 0 := by decide

/-! ## READ and PEEK (vectors of section 2.3, by their names there; the rest from R44 and R101, R102 by hand) -/

/-- V-RD-6 and V-RD-21. -/
theorem test_read_uint :
    answer (exec (.readUint none) (at1234 4)) = gives (.int 564) 16 ∧
    answer (exec (.readUint (some 8)) (lsb1234 4)) = gives (.int 35) 12 := by decide
/-- V-RD-9. -/
theorem test_read_uintbe : answer (exec (.readUintbe (some 8)) (at1234 3)) = gives (.int 145) 11 := by decide
/-- V-RD-22. -/
theorem test_read_uintle : answer (exec (.readUintle (some 16)) (lsb1234 0)) = gives (.int 13330) 16 := by decide
/-- V-RD-14. -/
theorem test_read_uintne :
    answer (exec (.readUintne (some 16)) (at1234 0)) = gives (.int 4660) 16 ∧
    answer (exec (.readUintne (some 16)) { at1234 0 with params := little }) = gives (.int 13330) 16 := by decide
/-- V-RD-15. -/
theorem test_read_int : answer (exec (.readInt (some 4)) (st big (hex [15, 0]) 0 .msb0)) = gives (.int (-1)) 4 := by decide
/-- V-RD-17. -/
theorem test_read_intbe :
    answer (exec (.readIntbe (some 16)) (st big (hex [15, 15, 15, 14]) 0 .msb0)) = gives (.int (-2)) 16 := by decide
/-- V-RD-18. -/
theorem test_read_intle :
    answer (exec (.readIntle (some 16)) (st big (hex [15, 14, 15, 15]) 0 .msb0)) = gives (.int (-2)) 16 := by decide
/-- V-RD-19. -/
theorem test_read_intne :
    answer (exec (.readIntne (some 16)) (st big (hex [15, 14, 15, 15]) 0 .msb0)) = gives (.int (-257)) 16 ∧
    answer (exec (.readIntne (some 16)) (st little (hex [15, 14, 15, 15]) 0 .msb0)) = gives (.int (-2)) 16 := by decide
/-- V-RD-5: the end of the stream is tested before the length. -/
theorem test_read_uint_end_of_stream :
    answer (exec (.readUint (some 0)) (at1234 16)) = fails (.read .endOfStream) none 16 := by decide
/-- V-RD-12: the overrun is tested before the whole-byte rule. -/
theorem test_read_uintle_overrun :
    answer (exec (.readUintle (some 16)) (at1234 8)) = fails (.read .overrun) none 8 := by decide
/-- V-RD-24. -/
theorem test_read_int_hazard :
    answer (exec (.readInt (some 4)) { at1234 0 with fault := true }) =
      some (some (.err (.originHazard .undefined) none), 0, true) := by decide

/-- V-PK-6. -/
theorem test_peek_uint : answer (exec (.peekUint (some 4)) (lsb1234 0)) = gives (.int 4) 0 := by decide
theorem test_peek_uintbe : answer (exec (.peekUintbe (some 8)) (at1234 3)) = gives (.int 145) 3 := by decide
/-- V-PK-3. -/
theorem test_peek_uintle : answer (exec (.peekUintle (some 12)) (at1234 4)) = fails (.byteAlign 12) none 4 := by decide
theorem test_peek_uintne :
    answer (exec (.peekUintne (some 16)) { at1234 0 with params := little }) = gives (.int 13330) 0 := by decide
theorem test_peek_int : answer (exec (.peekInt (some 4)) (st big (hex [15, 0]) 0 .msb0)) = gives (.int (-1)) 0 := by decide
theorem test_peek_intbe :
    answer (exec (.peekIntbe (some 16)) (st big (hex [15, 15, 15, 14]) 0 .msb0)) = gives (.int (-2)) 0 := by decide
/-- V-PK-4. -/
theorem test_peek_intle : answer (exec (.peekIntle (some 8)) (at1234 8)) = gives (.int 52) 8 := by decide
theorem test_peek_intne :
    answer (exec (.peekIntne none) (st little (hex [15, 14, 15, 15]) 0 .msb0)) = gives (.int (-2)) 0 := by decide

/-! ## Plans and control (vectors of sections 2.4 and 2.5, by their names there) -/

/-- V-PL-1 and V-PL-9. -/
theorem test_readlist :
    answer (exec (.readlist [⟨uint, some 4⟩, ⟨uintle, some 8⟩, ⟨uint, none⟩]) (at1234 0)) = gives (.ints [1, 35, 4]) 16 ∧
    answer (exec (.readlist [⟨int, some 4⟩, ⟨int, some 4⟩, ⟨int, some 8⟩]) (lsb1234 0)) = gives (.ints [4, 3, 18]) 16 := by
  decide
/-- V-PL-3, V-PL-4 and V-PL-6: the cursor stays; and a total above `MAX_LEN` is refused (R5). -/
theorem test_readlist_errors :
    answer (exec (.readlist [⟨uint, some 4⟩, ⟨uint, none⟩, ⟨uint, none⟩]) (at1234 0)) =
      fails (.creation .twoStretchy) (some 2) 0 ∧
    answer (exec (.readlist [⟨uint, some 8⟩, ⟨uint, none⟩, ⟨uint, some 12⟩]) (at1234 0)) =
      fails (.read .overrun) (some 1) 0 ∧
    answer (exec (.readlist [⟨uint, some 8⟩, ⟨uint, some 8⟩, ⟨uint, some 1⟩]) (at1234 0)) =
      fails (.read .endOfStream) (some 2) 0 ∧
    answer (exec (.readlist [⟨uint, some 8⟩, ⟨uint, some 9⟩]) (st small (hex [1, 2, 3, 4]) 0 .msb0)) = none := by decide
/-- V-PL-10. -/
theorem test_peeklist :
    answer (exec (.peeklist [⟨uint, some 4⟩, ⟨uint, some 4⟩]) (at1234 4)) = gives (.ints [2, 3]) 4 := by decide
/-- V-PL-11. -/
theorem test_peeklist_overrun :
    answer (exec (.peeklist [⟨uint, some 8⟩, ⟨uint, some 9⟩]) (at1234 0)) = fails (.read .overrun) (some 1) 0 := by decide
/-- V-PL-12 and V-PL-14. -/
theorem test_unpack :
    answer (exec (.unpack [⟨uint, some 6⟩, ⟨uint, some 6⟩]) (st big (hex [1, 6, 0]) 7 .msb0)) = gives (.ints [5, 32]) 7 ∧
    answer (exec (.unpack [⟨uint, some 4⟩]) (lsb1234 0)) = gives (.ints [4]) 0 := by decide
/-- V-PL-15. -/
theorem test_unpack_hazard :
    answer (exec (.unpack [⟨uint, some 4⟩]) { at1234 3 with fault := true }) =
      some (some (.err (.originHazard .undefined) none), 3, true) := by decide
/-- V-PA-2. -/
theorem test_pack :
    answer (exec (.pack [(⟨intle, some 16⟩, -2), (⟨uint, some 4⟩, 9), (⟨int, some 4⟩, -1)]) (at1234 0)) =
      gives (.field (hex [15, 14, 15, 15, 9, 15])) 0 := by decide
/-- V-PA-3 and V-PA-5. -/
theorem test_pack_errors :
    answer (exec (.pack [(⟨uint, some 4⟩, 1), (⟨uint, none⟩, 3)]) (at1234 0)) =
      fails (.creation .missingLength) (some 1) 0 ∧
    answer (exec (.pack [(⟨uint, some 4⟩, 1), (⟨⟨.signed, .be⟩, some 12⟩, 0)]) (at1234 0)) =
      fails (.byteAlign 12) (some 1) 0 := by decide
/-- V-CT-1. -/
theorem test_setpos : answer (exec (.setpos 16) (at1234 0)) = gives .none 16 := by decide
/-- V-CT-2 and V-CT-3. -/
theorem test_setpos_range :
    answer (exec (.setpos 17) (at1234 5)) = fails .valuePosRange none 5 ∧
    answer (exec (.setpos (-1)) (at1234 5)) = fails .valuePosRange none 5 := by decide
/-- V-CT-4. -/
theorem test_setorigin : exec (.setorigin .lsb0) (at1234 0) = .next { lsb1234 0 with reply := some (.ok .none) } := rfl
/-- V-CT-5. -/
theorem test_setorigin_hazard :
    exec (.setorigin .lsb0) (at1234 4) =
      .next { lsb1234 4 with fault := true, reply := some (.err (.originHazard .switch) none) } := rfl
/-- V-CT-7. -/
theorem test_bind :
    exec (.bind (hex [10, 11])) { at1234 4 with fault := true } =
      .next { st big (hex [10, 11]) 0 .msb0 with fault := true, reply := some (.ok .none) } := rfl
/-- V-CT-9. -/
theorem test_getpos : answer (exec .getpos (at1234 9)) = gives (.int 9) 9 := by decide

/-! ## A step -/

/-- A step takes the oldest transaction, and an illegal word is an error after which the port goes on (R55, R65). -/
theorem test_step_getpos :
    answer (step { at1234 5 with port := [⟨0x83#8, .kNone⟩, ⟨0xFF#8, .kNone⟩] }) = gives (.int 5) 5 := by decide
theorem test_step_illegal :
    answer (step { at1234 5 with port := [⟨0xFF#8, .kNone⟩] }) = fails (.illegalCommand 0xFF#8) none 5 := by decide
/-- A BIND longer than `MAX_LEN` is refused (R5, R147). -/
theorem test_bind_refused : answer (exec (.bind (List.replicate 17 true)) (st small [] 0 .msb0)) = none := by decide

/-! ## The host's side -/

/-- Buffer bits count from the most significant bit of a byte (R41), and padding goes at the end (R42). -/
theorem test_view_bits : viewBits ⟨[0x12#8, 0x34#8], 4, 8⟩ = hex [2, 3] := by decide
theorem test_to_bytes : toBytes (hex [1, 6, 0]) = [0x16#8, 0x00#8] ∧ toBytes [true] = [0x80#8] := by decide
/-- R73, R74. -/
theorem test_assemble_pack :
    assemble "PACK intle16=-2, uint:4=9".toList =
      .ok (.pack [(⟨intle, some 16⟩, -2), (⟨uint, some 4⟩, 9)]) := by decide
theorem test_assemble_dec : assemble "DEC.uint 0x160".toList = .ok (.decUint (hex [1, 6, 0])) := by decide

/-! ## The hypotheses of the statements can be met -/

theorem witness_StepRunsTheDecodedCommand :
    let s := { at1234 0 with port := [⟨0x83#8, .kNone⟩] }
    s.port = ⟨0x83#8, .kNone⟩ :: [] ∧ decode ⟨0x83#8, .kNone⟩ = .ok .getpos := ⟨rfl, rfl⟩

theorem witness_IdleStepChangesNothing : (at1234 3).port = [] := rfl

/-- The words at the ends of each range that R65 reserves, and the legal words beside them. -/
theorem witness_ReservedWordsRaiseIllegalCommand :
    (∀ cmd ∈ [0x01#8, 0x3F#8, 0x51#8, 0x57#8, 0x6F#8, 0x70#8, 0x7F#8, 0x84#8, 0xBF#8, 0xC0#8, 0xFF#8],
      Spec.Reserved cmd ∧ { at1234 0 with port := [⟨cmd, .kNone⟩] }.port = ⟨cmd, .kNone⟩ :: []) ∧
    (∀ cmd ∈ [0x00#8, 0x3C#8, 0x40#8, 0x4F#8, 0x50#8, 0x68#8, 0x80#8, 0x83#8], ¬ Spec.Reserved cmd) := by decide

/-- The smallest and the largest illegal token code, in a read plan and in a pack plan. -/
theorem witness_IllegalTokenMakesTheCommandIllegal :
    (∀ tk ∈ [0x08#8, 0xFF#8], 8 ≤ (⟨tk, some 4⟩ : RawToken).tk.toNat ∧
      (⟨tk, some 4⟩ : RawToken) ∈ [(⟨0x00#8, none⟩ : RawToken), ⟨tk, some 4⟩] ∧
      ((⟨tk, some 4⟩, 1) : RawToken × Int) ∈ [((⟨tk, some 4⟩, 1) : RawToken × Int)]) ∧
    (∀ cmd ∈ [0x50#8, 0x58#8, 0x60#8], cmd = 0x50#8 ∨ cmd = 0x58#8 ∨ cmd = 0x60#8) := by decide

theorem witness_EveryWordIsOneCommandOrIllegal :
    ¬ Spec.Reserved 0x83#8 ∧ Spec.Reserved 0x84#8 ∧ decode ⟨0x83#8, .kNone⟩ = .ok .getpos :=
  ⟨by decide, by decide, rfl⟩

theorem witness_DecodedTransactionIsTheEncoding : decode ⟨0x80#8, .kPos (-1)⟩ = .ok (.setpos (-1)) := rfl

/-- Each stage of ENC, at the ends of its range: the limit 16, length 0, 12 bits of a whole-byte dtype, the values on both
sides of the range. -/
theorem witness_EncRunsItsStagesInOrder :
    (small.within 17 = false ∧ small.within 16 = true) ∧
    (small.within 0 = true ∧ (0 : Nat) = 0) ∧
    (small.within 12 = true ∧ (12 : Nat) ≠ 0 ∧ ¬ Spec.WholeBytes uintle 12) := by decide

/-- The last stage of ENC: the values at and beside both ends of the range, unsigned and signed, and of one bit. -/
theorem witness_EncRunsItsStagesInOrder_range :
    (Spec.LengthOk small uint 8 ∧ ¬ Spec.InRange uint.sg 8 256 ∧ ¬ Spec.InRange uint.sg 8 (-1)) ∧
    (Spec.LengthOk small int 8 ∧ ¬ Spec.InRange int.sg 8 128 ∧ ¬ Spec.InRange int.sg 8 (-129)) ∧
    (Spec.LengthOk small uintle 16 ∧ Spec.InRange uintle.sg 16 0 ∧ Spec.InRange uintle.sg 16 65535) ∧
    (Spec.LengthOk small int 1 ∧ Spec.InRange int.sg 1 (-1) ∧ Spec.InRange int.sg 1 0 ∧ ¬ Spec.InRange int.sg 1 1) :=
  ⟨by decide, by decide, by decide, by decide⟩

theorem witness_DecRunsItsStagesInOrder :
    small.within (List.replicate 17 true).length = false ∧
    (small.within ([] : Bits).length = true ∧ ([] : Bits).length = 0) ∧
    (small.within (hex [15, 15, 15]).length = true ∧ (hex [15, 15, 15]).length ≠ 0 ∧
      ¬ Spec.WholeBytes intle (hex [15, 15, 15]).length) ∧
    Spec.LengthOk small int [true].length ∧ Spec.LengthOk small intle (hex [15, 15, 0, 0]).length := by decide

theorem witness_DecodedValueIsInRange :
    ∃ t, exec (Instr.dec int (hex [8, 0])) (at1234 0) = .next t ∧ t.reply = some (.ok (.int (-128))) := ⟨_, rfl, rfl⟩

theorem witness_EncodeAndDecodeAreInverse :
    exec (Instr.enc intle (some 16) (-256)) (at1234 0) =
      .next { at1234 0 with reply := some (.ok (.field (hex [0, 0, 15, 15]))) } ∧
    exec (Instr.dec intle (hex [0, 0, 15, 15])) (at1234 0) =
      .next { at1234 0 with reply := some (.ok (.int (-256))) } := ⟨rfl, rfl⟩

theorem witness_SignBitTellsNegativeValues :
    ∃ t, exec (Instr.enc ⟨.signed, .le⟩ (some 16) (-256)) (at1234 0) = .next t ∧
      t.reply = some (.ok (.field (hex [0, 0, 15, 15]))) := ⟨_, rfl, rfl⟩

theorem witness_ByteOrdersAgreeWhereTheyShould :
    16 % 8 = 0 ∧ (hex [1, 2, 3, 4]).length % 8 = 0 ∧ (hex [10, 11]).length = 8 := by decide

theorem witness_ByterevReversesWholeBytes : (hex [1, 2, 3, 4]).length = 8 * 2 ∧ 1 < 2 ∧ 7 < 8 := by decide

theorem witness_ExtensionKeepsTheValue :
    (nibble 13).length ≤ 8 ∧ (at1234 0).params.within 8 = true ∧
    exec (.decUint (nibble 13)) (at1234 0) = .next { at1234 0 with reply := some (.ok (.int 13)) } ∧
    exec (.decInt (nibble 13)) (at1234 0) = .next { at1234 0 with reply := some (.ok (.int (-3))) } :=
  ⟨by decide, by decide, rfl, rfl⟩

theorem witness_CodecAndPackReadParametersOnly :
    Spec.PortsOnly (.encUint (some 8) 5) ∧ (lsb1234 7).params = (at1234 0).params ∧
    (∃ t, exec (.encUint (some 8) 5) (at1234 0) = .next t) ∧
    Spec.PortsOnly (.encUint (some 17) 5) ∧
    exec (.encUint (some 17) 5) (st small [] 0 .msb0) = .refused .lengthAboveMaxLen :=
  ⟨.inl ⟨uint, _, _, rfl⟩, rfl, ⟨_, rfl⟩, .inl ⟨uint, _, _, rfl⟩, rfl⟩

theorem witness_MemReadTakesTheStoredRun :
    8 + 8 ≤ (at1234 0).seq.length ∧ 7 < 8 ∧ (at1234 0).origin = .msb0 ∧
    16 + 0 ≤ (lsb1234 0).seq.length ∧ 0 + 16 ≤ (lsb1234 0).seq.length ∧ (lsb1234 0).origin = .lsb0 := by decide

theorem witness_ConsecutiveReadsTakeAdjacentRuns :
    0 < (at1234 0).seq.length ∧ 15 < (lsb1234 0).seq.length ∧ (at1234 0).origin = .msb0 ∧ (lsb1234 0).origin = .lsb0 ∧
    3 + 5 + 8 ≤ (at1234 0).seq.length ∧ 3 + 5 + 8 ≤ (lsb1234 0).seq.length := by decide

theorem getpos_reads_no_seq : ¬ Spec.ReadsSeq .getpos := by
  rintro (⟨⟨sg, bo⟩, len, h⟩ | ⟨⟨sg, bo⟩, len, h⟩ | ⟨p, h⟩ | ⟨p, h⟩ | ⟨p, h⟩) <;>
    first | (cases sg <;> cases bo <;> cases h) | cases h

theorem bind_reads_no_seq (q : Bits) : ¬ Spec.ReadsSeq (.bind q) := by
  rintro (⟨⟨sg, bo⟩, len, h⟩ | ⟨⟨sg, bo⟩, len, h⟩ | ⟨p, h⟩ | ⟨p, h⟩ | ⟨p, h⟩) <;>
    first | (cases sg <;> cases bo <;> cases h) | cases h

theorem witness_HazardGateStopsReadsOfSeqOnly :
    (Spec.ReadsSeq (.readUint none) ∧ { at1234 0 with fault := true }.fault = true) ∧
    (¬ Spec.ReadsSeq .getpos ∧ ∃ t, exec .getpos { at1234 0 with fault := false } = .next t) ∧
    (¬ Spec.ReadsSeq (.bind (List.replicate 17 true)) ∧
      exec (.bind (List.replicate 17 true)) { st small [] 0 .msb0 with fault := false } = .refused .lengthAboveMaxLen) :=
  ⟨⟨.inl ⟨uint, _, rfl⟩, rfl⟩, ⟨getpos_reads_no_seq, _, rfl⟩, bind_reads_no_seq _, rfl⟩

/-- The stages of READ and PEEK on `SEQ = 0x1234`: at the end; one bit too many; a limit below the length; no bits; 12
bits of a whole-byte dtype; the last bit, and the whole sequence. -/
theorem witness_ReadRunsItsStagesInOrder :
    let L := (at1234 0).seq.length
    { at1234 0 with fault := true }.fault = true ∧
    ((at1234 16).fault = false ∧ (at1234 16).pos ≤ L ∧ (at1234 16).pos = L) ∧
    ((at1234 15).pos < L ∧ L < (at1234 15).pos + 2) ∧
    ((at1234 0).pos < L ∧ (at1234 0).pos + 16 ≤ L ∧ { big with maxLen := some 15 }.within 16 = false) ∧
    ((at1234 15).pos < L ∧ (at1234 15).pos + 0 ≤ L ∧ (at1234 15).params.within 0 = true) ∧
    ((at1234 4).pos < L ∧ (at1234 4).pos + 12 ≤ L ∧ (at1234 4).params.within 12 = true ∧ ¬ Spec.WholeBytes uintle 12) ∧
    ((at1234 15).pos + 1 ≤ L ∧ Spec.LengthOk (at1234 15).params uint 1) ∧
    ((at1234 0).pos + 16 ≤ L ∧ Spec.LengthOk (at1234 0).params uintle 16) := by decide

/-- The same hypotheses, for PEEK. -/
theorem witness_PeekRunsItsStagesInOrder :
    let L := (lsb1234 0).seq.length
    { lsb1234 0 with fault := true }.fault = true ∧
    ((lsb1234 16).fault = false ∧ (lsb1234 16).pos ≤ L ∧ (lsb1234 16).pos = L) ∧
    ((lsb1234 15).pos < L ∧ L < (lsb1234 15).pos + 2) ∧
    ((lsb1234 0).pos < L ∧ (lsb1234 0).pos + 16 ≤ L ∧ { big with maxLen := some 15 }.within 16 = false) ∧
    ((lsb1234 15).pos < L ∧ (lsb1234 15).pos + 0 ≤ L ∧ (lsb1234 15).params.within 0 = true) ∧
    ((lsb1234 4).pos < L ∧ (lsb1234 4).pos + 12 ≤ L ∧ ¬ Spec.WholeBytes uintle 12) ∧
    ((lsb1234 15).pos + 1 ≤ L ∧ Spec.LengthOk (lsb1234 15).params uint 1) := by decide

/-- A plan of two fixed tokens that fills `SEQ`. -/
theorem witness_ListReadsDecodeEveryEntry :
    let plan : List Token := [⟨uint, some 4⟩, ⟨uint, some 12⟩]
    let s := { at1234 0 with params := small }
    s.fault = false ∧ Spec.FixedPlan plan ∧
    (∀ t, t ∈ plan → Spec.LengthOk s.params t.dt (t.len.getD 0)) ∧
    s.params.within (Spec.planLength plan) = true ∧
    s.pos + Spec.planLength plan ≤ s.seq.length := by decide

/-- A plan of two entries within the limit 16 whose total is 17. -/
theorem witness_PlanTotalAboveTheLimitIsRefused :
    let plan : List Token := [⟨uint, some 8⟩, ⟨uint, some 9⟩]
    (st small (hex [1, 2, 3, 4]) 0 .msb0).fault = false ∧ Spec.FixedPlan plan ∧
    small.within (Spec.planLength plan) = false := by decide

/-- The fixed entries fill what is left, and leave one bit less than nothing, from the cursor and from the start. -/
theorem witness_StretchyEntryTakesWhatRemains :
    let a : List Token := [⟨uint, some 4⟩]
    let c : List Token := [⟨uint, some 8⟩]
    (at1234 4).fault = false ∧ (at1234 4).pos ≤ (at1234 4).seq.length ∧ Spec.FixedPlan a ∧ Spec.FixedPlan c ∧
    (at1234 4).pos + (Spec.planLength a + Spec.planLength c) ≤ (at1234 4).seq.length ∧
    (at1234 5).seq.length < (at1234 5).pos + (Spec.planLength a + Spec.planLength c) ∧
    Spec.planLength a + Spec.planLength c ≤ (at1234 4).seq.length ∧
    (st big (hex [1, 2]) 0 .msb0).seq.length < Spec.planLength a + Spec.planLength c := by decide

theorem witness_SecondStretchyEntryIsCreationError :
    (at1234 0).fault = false ∧ Spec.FixedPlan [⟨uint, some 4⟩] ∧ Spec.FixedPlan [] := by decide

theorem at1234_inv : (at1234 0).Inv := ⟨by decide, by decide⟩

theorem small1234_inv : (st small (hex [1, 2, 3, 4]) 0 .msb0).Inv := ⟨by decide, by decide⟩

/-- A plan whose READs all succeed, and one whose last READ fails, on an instance that takes its total and on one that
does not. -/
theorem witness_ReadlistComposesReads :
    (at1234 0).Inv ∧ (at1234 0).fault = false ∧
    (Spec.FixedPlan [⟨uint, some 8⟩, ⟨uint, some 8⟩] ∧
      (Spec.readsInOrder [⟨uint, some 8⟩, ⟨uint, some 8⟩] (at1234 0)).2.1 = none) ∧
    (Spec.FixedPlan [⟨uint, some 16⟩, ⟨uint, some 1⟩] ∧
      (Spec.readsInOrder [⟨uint, some 16⟩, ⟨uint, some 1⟩] (at1234 0)).2.1 = some (.read .endOfStream) ∧
      (at1234 0).params.within (Spec.planLength [⟨uint, some 16⟩, ⟨uint, some 1⟩]) = true) ∧
    ((st small (hex [1, 2, 3, 4]) 0 .msb0).Inv ∧
      (Spec.readsInOrder [⟨uint, some 16⟩, ⟨uint, some 1⟩] (st small (hex [1, 2, 3, 4]) 0 .msb0)).2.1 =
        some (.read .endOfStream) ∧
      small.within (Spec.planLength [⟨uint, some 16⟩, ⟨uint, some 1⟩]) = false) :=
  ⟨at1234_inv, by decide, by decide, by decide, small1234_inv, by decide, by decide⟩

theorem witness_PeeklistAndUnpackAnswerAsReadlist :
    (∃ u, exec (.readlist [⟨uint, some 8⟩]) (at1234 4) = .next u) ∧
    exec (.readlist [⟨uint, some 17⟩]) { at1234 4 with params := small } = .refused .lengthAboveMaxLen ∧
    (∃ u, exec (.readlist [⟨uint, some 8⟩]) { at1234 4 with pos := 0 } = .next u) ∧
    exec (.readlist [⟨uint, some 17⟩]) { at1234 4 with params := small, pos := 0 } = .refused .lengthAboveMaxLen :=
  ⟨⟨_, rfl⟩, rfl, ⟨_, rfl⟩, rfl⟩

theorem witness_OneEntryListsAreSingleCommands :
    (∃ u, exec (Instr.read uint (some 8)) (at1234 4) = .next u ∧ u.reply = some (.ok (.int 35))) ∧
    (∃ u, exec (Instr.enc uint (some 8) 35) (at1234 4) = .next u ∧ u.reply = some (.ok (.field (hex [2, 3])))) :=
  ⟨⟨_, rfl, rfl⟩, _, rfl, rfl⟩

/-- A pack plan of a little-endian and a one-bit entry with their fields; within the limit 17, above the limit 16. -/
theorem witness_PackConcatenatesItsFields :
    List.Forall₂ (fun e F => ∃ n, e.1.len = some n ∧ Spec.LengthOk small e.1.dt n ∧
        Spec.InRange e.1.dt.sg n e.2 ∧ Spec.IsField small e.1.dt n e.2 F)
      [((⟨intle, some 16⟩, -256) : Token × Int), (⟨int, some 1⟩, -1)] [hex [0, 0, 15, 15], [true]] ∧
    small.within (List.flatten [hex [0, 0, 15, 15], [true]]).length = false ∧
    small.within (List.flatten [hex [0, 0, 15, 15]]).length = true := by
  refine ⟨.cons ⟨16, rfl, by decide, by decide, by decide⟩ (.cons ⟨1, rfl, by decide, by decide, by decide⟩ .nil), ?_⟩
  decide

theorem witness_PackReportsTheFirstFailingEntry :
    let s := st small (hex [1, 2, 3, 4]) 0 .msb0
    (∀ x, x ∈ [((⟨uint, some 4⟩, 1) : Token × Int)] → ∃ F, exec (Instr.enc x.1.dt x.1.len x.2) s =
      .next { s with reply := some (.ok (.field F)) }) ∧
    exec (Instr.enc uint none 3) s = .next { s with reply := some (.err (.creation .missingLength) none) } ∧
    exec (Instr.enc uint (some 17) 3) s = .refused .lengthAboveMaxLen :=
  ⟨fun x hx => by rw [List.mem_singleton.mp hx]; exact ⟨nibble 1, rfl⟩, rfl, rfl⟩

/-- Before any BIND: right after reset, and after a change of the origin. -/
theorem witness_ReadBeforeBindIsEndOfStream :
    ((State.resetOf big).seq = [] ∧ (State.resetOf big).pos = 0 ∧ (State.resetOf big).fault = false) ∧
    (∀ q, Instr.setorigin .lsb0 ≠ .bind q) ∧
    exec (.setorigin .lsb0) (State.resetOf big) =
      .next { State.resetOf big with origin := .lsb0, reply := some (.ok .none) } :=
  ⟨⟨rfl, rfl, rfl⟩, nofun, rfl⟩

theorem witness_UnpackOfPackGivesTheValuesBack :
    exec (.pack [(⟨intle, some 16⟩, -2), (⟨uint, some 4⟩, 9)]) (at1234 0) =
      .next { at1234 0 with reply := some (.ok (.field (hex [15, 14, 15, 15, 9]))) } ∧
    (at1234 0).fault = false ∧ (at1234 0).origin = .msb0 := ⟨rfl, rfl, rfl⟩

/-- Both ends of the range `0 .. 16` and the values beside them. -/
theorem witness_SetposSetsTheCursorInRange :
    (∀ p ∈ [(0 : Int), 16], 0 ≤ p ∧ p ≤ (at1234 0).seq.length) ∧
    (∀ p ∈ [(-1 : Int), 17], p < 0 ∨ (at1234 0).seq.length < p) := by decide

theorem witness_SetoriginSwitchesAndFlagsTheHazard :
    (Origin.lsb0 ≠ (at1234 1).origin ∧ (at1234 1).pos ≠ 0) ∧
    (Origin.msb0 = (at1234 1).origin ∨ (at1234 1).pos = 0) ∧ (Origin.lsb0 = (at1234 0).origin ∨ (at1234 0).pos = 0) := by
  decide

theorem witness_BindReplacesTheSequence :
    small.within (hex [1, 2, 3, 4]).length = true ∧ small.within (List.replicate 17 true).length = false := by decide

theorem witness_HazardFreeOriginSwitch : 0 ≤ (at1234 0).seq.length ∧ 16 ≤ (at1234 0).seq.length := by decide

theorem witness_StepKeepsTheInvariant :
    (at1234 0).Inv ∧ ∃ s', step { at1234 0 with port := [⟨0x40#8, .sTok (some 16)⟩] } = .next s' := ⟨at1234_inv, _, rfl⟩

theorem witness_FaultIsStickyAndSetBySwitchOnly :
    (∃ s', step { at1234 4 with fault := true } = .next s') ∧
    (∃ s', step { at1234 4 with port := [⟨0x81#8, .kOrg true⟩] } = .next s' ∧ (at1234 4).fault = false ∧
      s'.fault = true) := ⟨⟨_, rfl⟩, _, rfl, rfl, rfl⟩

theorem witness_StateElementsHaveTheirWriters :
    (∃ t, exec (.bind [true]) (at1234 4) = .next t ∧ t.seq ≠ (at1234 4).seq) ∧
    (∃ t, exec (.setorigin .lsb0) (at1234 0) = .next t ∧ t.origin ≠ (at1234 0).origin) ∧
    (∃ t, exec (.readUint (some 4)) (at1234 0) = .next t ∧ t.pos ≠ (at1234 0).pos) :=
  ⟨⟨_, rfl, by decide⟩, ⟨_, rfl, by decide⟩, _, rfl, by decide⟩

theorem witness_StepKeepsParametersAndOrder :
    let s := { at1234 4 with port := [⟨0x83#8, .kNone⟩, ⟨0x83#8, .kNone⟩] }
    (∃ s', step s = .next s') ∧ s.port ≠ [] := ⟨⟨_, rfl⟩, by decide⟩

theorem witness_FailingCommandsChangeNoState :
    (∃ t, step { at1234 4 with port := [⟨0x80#8, .kPos 17⟩] } = .next t ∧ t.reply = some (.err .valuePosRange none)) ∧
    (∃ t, step { at1234 4 with port := [⟨0x84#8, .kNone⟩] } = .next t ∧
      t.reply = some (.err (.illegalCommand 0x84#8) none)) ∧
    (∃ t, step { at1234 4 with port := [⟨0x81#8, .kOrg true⟩] } = .next t ∧
      t.reply = some (.err (.originHazard .switch) none)) :=
  ⟨⟨_, rfl, rfl⟩, ⟨_, rfl, rfl⟩, _, rfl, rfl⟩

theorem witness_ReadingCommandsLeaveTheStateAlone :
    (∃ t, exec .getpos (at1234 4) = .next t) ∧
    ((∃ plan, Instr.readlist [⟨uint, none⟩] = .readlist plan) ∧ ∃ t, exec (.readlist [⟨uint, none⟩]) (at1234 4) = .next t) :=
  ⟨⟨_, rfl⟩, ⟨_, rfl⟩, _, rfl⟩

theorem witness_CommandsWithinTheLimitRun :
    (st small [] 0 .msb0).Inv ∧ (Instr.encUint (some 16) 5).wellFormed small = true ∧
    exec (.encUint (some 17) 5) (st small [] 0 .msb0) = .refused .lengthAboveMaxLen ∧
    exec (.unpack [⟨uint, some 17⟩]) (st small [] 0 .msb0) = .refused .lengthAboveMaxLen :=
  ⟨⟨by decide, by decide⟩, by decide, rfl, rfl⟩

/-- One error of each command that can fail, with its reply. -/
theorem witness_CommandsRaiseTheirOwnErrors :
    (∃ t, exec (Instr.enc uint none 5) (at1234 0) = .next t ∧ t.reply = some (.err (.creation .missingLength) none)) ∧
    (∃ t, exec (Instr.dec uint []) (at1234 0) = .next t ∧ t.reply = some (.err .interpretZeroLength none)) ∧
    (∃ t, exec (Instr.read uint (some 1)) (at1234 16) = .next t ∧ t.reply = some (.err (.read .endOfStream) none)) ∧
    (∃ t, exec (Instr.peek uintle (some 12)) (at1234 0) = .next t ∧ t.reply = some (.err (.byteAlign 12) none)) ∧
    (∃ t, exec (.readlist [⟨uint, some 17⟩]) (at1234 0) = .next t ∧ t.reply = some (.err (.read .overrun) (some 0))) ∧
    (∃ t, exec (.peeklist [⟨uint, some 0⟩]) (at1234 0) = .next t ∧ t.reply = some (.err .interpretZeroLength (some 0))) ∧
    (∃ t, exec (.unpack [⟨uint, none⟩, ⟨uint, none⟩]) (at1234 0) = .next t ∧
      t.reply = some (.err (.creation .twoStretchy) (some 1))) ∧
    (∃ t, exec (.pack [(⟨uint, some 4⟩, 16)]) (at1234 0) = .next t ∧ t.reply = some (.err (.creation .outOfRange) (some 0))) ∧
    (∃ t, exec (.setpos 17) (at1234 0) = .next t ∧ t.reply = some (.err .valuePosRange none)) ∧
    (∃ t, exec (.setorigin .lsb0) (at1234 4) = .next t ∧ t.reply = some (.err (.originHazard .switch) none)) := by
  refine ⟨?_, ?_, ?_, ?_, ?_, ?_, ?_, ?_, ?_, ?_⟩ <;> exact ⟨_, rfl, rfl⟩

theorem witness_ErrorIndexIsAnEntryOfThePlan :
    (∃ t, exec (.readlist [⟨uint, some 16⟩, ⟨uint, some 1⟩]) (at1234 0) = .next t ∧
      t.reply = some (.err (.read .endOfStream) (some 1))) ∧
    (∃ t, exec (.pack [(⟨uint, some 4⟩, 16)]) (at1234 0) = .next t ∧
      t.reply = some (.err (.creation .outOfRange) (some 0))) := ⟨⟨_, rfl, rfl⟩, _, rfl, rfl⟩

/-- One success of each command, with its reply. -/
theorem witness_ResultsHaveTheirKind :
    (∃ t, exec (Instr.enc uint (some 4) 5) (at1234 0) = .next t ∧ t.reply = some (.ok (.field (nibble 5)))) ∧
    (∃ t, exec (.pack []) (at1234 0) = .next t ∧ t.reply = some (.ok (.field []))) ∧
    (∃ t, exec (Instr.dec uint [true]) (at1234 0) = .next t ∧ t.reply = some (.ok (.int 1))) ∧
    (∃ t, exec (Instr.read uint (some 4)) (at1234 0) = .next t ∧ t.reply = some (.ok (.int 1))) ∧
    (∃ t, exec (Instr.peek uint (some 4)) (at1234 0) = .next t ∧ t.reply = some (.ok (.int 1))) ∧
    (∃ t, exec .getpos (at1234 9) = .next t ∧ t.reply = some (.ok (.int 9))) ∧
    (∃ t, exec (.readlist []) (at1234 16) = .next t ∧ t.reply = some (.ok (.ints []))) ∧
    (∃ t, exec (.peeklist [⟨uint, some 4⟩]) (at1234 0) = .next t ∧ t.reply = some (.ok (.ints [1]))) ∧
    (∃ t, exec (.unpack [⟨uint, some 4⟩]) (at1234 7) = .next t ∧ t.reply = some (.ok (.ints [1]))) ∧
    (∃ t, exec (.setpos 16) (at1234 0) = .next t ∧ t.reply = some (.ok .none)) ∧
    (∃ t, exec (.setorigin .lsb0) (at1234 0) = .next t ∧ t.reply = some (.ok .none)) ∧
    (∃ t, exec (.bind []) (at1234 9) = .next t ∧ t.reply = some (.ok .none)) := by
  refine ⟨?_, ?_, ?_, ?_, ?_, ?_, ?_, ?_, ?_, ?_, ?_, ?_⟩ <;> exact ⟨_, rfl, rfl⟩

/-- A view that ends at the end of its buffer, and the empty view there. -/
theorem witness_ViewBitsAreBufferBits :
    viewValid ⟨[0x12#8, 0x34#8], 4, 12⟩ = true ∧ 11 < 12 ∧ viewValid ⟨[0x12#8, 0x34#8], 16, 0⟩ = true := by decide

end Sys2Proof.Tests
end

section
/-! The statements of 00_scope (R4, R5, R9, R10): byte reversal, extension of a field, the limit `MAX_LEN`. -/

namespace Sys2Proof.Machine

/-! ## Byte reversal (R10) -/

/-- `byterev` of a field of `m` whole bytes: its bytes in reverse order, put together. -/
theorem byterev_eq_flatten {m : Nat} {F : Bits} (h : F.length = 8 * m) :
    byterev F = (bytesOf m F).reverse.flatten := by
  rw [byterev, h, Nat.mul_div_cancel_left m (by decide)]

/-- The bytes of a field of `m` whole bytes, in reverse order, have eight bits each. -/
theorem length_of_mem_reverse_bytesOf {m : Nat} {F : Bits} (h : F.length = 8 * m) :
    ∀ B ∈ (bytesOf m F).reverse, B.length = 8 :=
  fun B hB => length_of_mem_bytesOf m F B h (List.mem_reverse.mp hB)

theorem length_byterev_bytes {m : Nat} {F : Bits} (h : F.length = 8 * m) : (byterev F).length = 8 * m := by
  rw [length_byterev F (by omega), h]

/-- The bytes of the reversed field are the bytes of the field in reverse order. -/
theorem bytesOf_byterev {m : Nat} {F : Bits} (h : F.length = 8 * m) :
    bytesOf m (byterev F) = (bytesOf m F).reverse := by
  have hb := bytesOf_flatten _ (length_of_mem_reverse_bytesOf h)
  rwa [List.length_reverse, length_bytesOf, ← byterev_eq_flatten h] at hb

theorem byterev_byterev {m : Nat} {F : Bits} (h : F.length = 8 * m) : byterev (byterev F) = F := by
  rw [byterev_eq_flatten (length_byterev_bytes h), bytesOf_byterev h, List.reverse_reverse, flatten_bytesOf m F h]

/-- Bit `t` of byte `j` of the reversed field is bit `t` of byte `m - 1 - j` of the field. -/
theorem getElem?_byterev {m : Nat} {F : Bits} (h : F.length = 8 * m) {j t : Nat} (hj : j < m) (ht : t < 8) :
    (byterev F)[8 * j + t]? = F[8 * (m - 1 - j) + t]? := by
  have hlen : (bytesOf m F).length = m := length_bytesOf m F
  rw [byterev_eq_flatten h,
    getElem?_flatten_bytes _ (length_of_mem_reverse_bytesOf h) j t ht (by simpa [hlen] using hj),
    List.getElem?_reverse (by rwa [hlen]), hlen, getElem?_bytesOf m _ F (by omega), Option.bind_some,
    List.getElem?_take_of_lt ht, List.getElem?_drop]

/-- Settles O18: the bytes of the reversed field are the reversed bytes. -/
theorem byterevReversesWholeBytes : Obligations.ByterevReversesWholeBytes :=
  fun _ _ h => ⟨length_byterev_bytes h, byterev_byterev h, fun _ _ hj ht => getElem?_byterev h hj ht⟩

/-! ## Zero and sign extension (R9) -/

theorem length_zext {N : Nat} {F : Bits} (h : F.length ≤ N) : (zext N F).length = N := by
  simp [zext]; omega

theorem length_sext {N : Nat} {F : Bits} (h : F.length ≤ N) : (sext N F).length = N := by
  simp [sext]; omega

/-- Sign extension keeps the sign bit. -/
theorem headD_sext (N : Nat) (F : Bits) : (sext N F).headD false = F.headD false := by
  unfold sext
  cases N - F.length <;> simp [List.replicate_succ]

/-- Zero extension keeps the unsigned value. -/
theorem fieldValue_zext (N : Nat) (F : Bits) : fieldValue .unsigned (zext N F) = fieldValue .unsigned F := by
  simp [fieldValue, zext, uval_append, uval_replicate_false]

/-- Sign extension keeps the signed value: `k` copies of a sign bit 1 add `(2^k - 1) * 2^L` to the unsigned value, which is
what the weight subtracted for the sign grows by. -/
theorem fieldValue_sext {N : Nat} {F : Bits} (h : F.length ≤ N) :
    fieldValue .signed (sext N F) = fieldValue .signed F := by
  simp only [fieldValue, headD_sext, length_sext h]
  cases hb : F.headD false with
  | false => simp only [sext, hb, uval_append, uval_replicate_false]; simp
  | true =>
    obtain ⟨k, rfl⟩ := Nat.exists_eq_add_of_le h
    have hones : (uval (List.replicate k true) : Int) + 1 = 2 ^ k := by exact_mod_cast uval_replicate_true k
    have hcopies : (uval (List.replicate k true) : Int) = 2 ^ k - 1 := by omega
    simp only [sext, hb, uval_append, if_true, Nat.add_sub_cancel_left]
    push_cast
    rw [hcopies]; ring

/-- DEC answers a value exactly where DecCore does (R100). -/
theorem exec_dec_eq_value {dt : Dtype} {F : Bits} {s : State} {v : Int} :
    exec (Instr.dec dt F) s = .next (s.respond (.int v)) ↔ decCore s.params dt F = .ok v := by
  rw [exec_dec, decCommand, conclude_eq_next]
  constructor
  · rintro (⟨a, ha, hs⟩ | ⟨e, j, -, hs⟩)
    · have hv : v = a := by simpa using congrArg State.reply hs
      rwa [hv]
    · simpa using congrArg State.reply hs
  · exact fun h => .inl ⟨v, h, rfl⟩

/-- The bit-wise DecCore answers a value for every field of a length from 1 to `MAX_LEN` (R104, R108). -/
theorem decCore_bit_eq_ok {prm : Params} {sg : Sign} {F : Bits} {v : Int} :
    decCore prm ⟨sg, .bit⟩ F = .ok v ↔ prm.within F.length = true ∧ F.length ≠ 0 ∧ v = fieldValue sg F := by
  simp [decCore_eq_ok, misaligned, canon, resolve]

/-- A longer field of the same value within the limit is decoded to the same value. -/
theorem exec_dec_bit_of_longer {sg : Sign} {F G : Bits} {s : State} {v : Int} (hle : F.length ≤ G.length)
    (hG : s.params.within G.length = true) (hval : fieldValue sg G = fieldValue sg F)
    (h : exec (Instr.dec ⟨sg, .bit⟩ F) s = .next (s.respond (.int v))) :
    exec (Instr.dec ⟨sg, .bit⟩ G) s = .next (s.respond (.int v)) := by
  rw [exec_dec_eq_value, decCore_bit_eq_ok] at h ⊢
  obtain ⟨-, hne, hv⟩ := h
  exact ⟨hG, by omega, hv.trans hval.symm⟩

/-- Settles O19: an extended field is a longer field of the same value. -/
theorem extensionKeepsTheValue : Obligations.ExtensionKeepsTheValue := by
  intro s F N v hle hN
  have hz := length_zext hle
  have hs := length_sext hle
  exact ⟨fun h => ⟨hz, exec_dec_bit_of_longer (sg := .unsigned) (by omega) (by rwa [hz]) (fieldValue_zext N F) h⟩,
    fun h => ⟨hs, exec_dec_bit_of_longer (sg := .signed) (by omega) (by rwa [hs]) (fieldValue_sext hle) h⟩⟩

/-! ## Refusals (R5, R155) -/

theorem wellFormed_enc (prm : Params) (dt : Dtype) (len : Option Nat) (v : Int) :
    (Instr.enc dt len v).wellFormed prm = prm.lenWithin len := by
  rcases dt with ⟨_ | _, _ | _ | _ | _⟩ <;> rfl

theorem wellFormed_dec (prm : Params) (dt : Dtype) (F : Bits) :
    (Instr.dec dt F).wellFormed prm = prm.within F.length := by
  rcases dt with ⟨_ | _, _ | _ | _ | _⟩ <;> rfl

/-- A gated command is refused only with `FAULT` = 0, where its pipeline refuses (R121, R155). -/
theorem gated_conclude_eq_refused {α : Type} {s : State} {r : Staged α} {k : α → State} {x : Refusal} :
    hazardGate s (conclude s r k) = .refused x ↔ s.fault = false ∧ r = .refuse ∧ x = .lengthAboveMaxLen := by
  cases h : s.fault <;> simp [hazardGate, h, conclude_eq_refused]

/-- Over a sequence within the limit a list command is refused for the lengths that its plan names (R140). -/
theorem gated_readPlan_refused {s : State} {plan : List Token} {p : Nat} {k : List Int × Nat → State} {x : Refusal}
    (hs : s.params.within s.seq.length = true) (h : hazardGate s (conclude s (readPlan s plan p) k) = .refused x) :
    x = .lengthAboveMaxLen ∧ s.params.within (planTotal plan) = false := by
  obtain ⟨-, hp, hx⟩ := gated_conclude_eq_refused.mp h
  exact ⟨hx, readPlan_refuse hs hp⟩

/-- Over a sequence within the limit a command is refused for a length above `MAX_LEN` only, and one that it names: what a
READ, a PEEK or a stretchy token takes lies inside `SEQ`. -/
theorem exec_refused {i : Instr} {s : State} {r : Refusal} (hs : s.params.within s.seq.length = true)
    (h : exec i s = .refused r) : r = .lengthAboveMaxLen ∧ i.wellFormed s.params = false := by
  rcases instr_shapes i with
    ⟨dt, len, v, rfl⟩ | ⟨dt, F, rfl⟩ | ⟨dt, len, rfl⟩ | ⟨dt, len, rfl⟩ | ⟨p, rfl⟩ | ⟨p, rfl⟩ | ⟨p, rfl⟩ | ⟨p, rfl⟩ |
    ⟨p, rfl⟩ | ⟨o, rfl⟩ | ⟨q, rfl⟩ | rfl
  · rw [exec_enc, encCommand, conclude_eq_refused, encCore_eq_refuse] at h
    obtain ⟨⟨n, rfl, hn⟩, hr⟩ := h
    exact ⟨hr, by rw [wellFormed_enc]; exact hn⟩
  · rw [exec_dec, decCommand, conclude_eq_refused, decCore_eq_refuse] at h
    exact ⟨h.2, by rw [wellFormed_dec]; exact h.1⟩
  · rw [exec_read, readCommand, gated_conclude_eq_refused] at h
    exact absurd h.2.1 (readCore_ne_refuse hs)
  · rw [exec_peek, peekCommand, gated_conclude_eq_refused] at h
    exact absurd h.2.1 (readCore_ne_refuse hs)
  · exact gated_readPlan_refused hs h
  · exact gated_readPlan_refused hs h
  · exact gated_readPlan_refused hs h
  · obtain ⟨hp, hr⟩ := conclude_eq_refused.mp h
    exact ⟨hr, packCore_refuse hp⟩
  · simp only [exec, execSetpos] at h
    split at h <;> simp at h
  · simp only [exec, execSetorigin] at h
    split at h <;> simp at h
  · simp only [exec, execBind] at h
    split at h <;> simp at h
    rename_i hq
    exact ⟨h.symm, by simpa [Instr.wellFormed] using hq⟩
  · simp [exec, execGetpos] at h

/-- Settles O47: no command faults, so one that is not refused answers a next state. -/
theorem commandsWithinTheLimitRun : Obligations.CommandsWithinTheLimitRun := by
  intro i s hinv
  refine ⟨fun hwf => ?_, fun r h => exec_refused hinv.mem_wf h⟩
  cases h : exec i s with
  | next t => exact ⟨t, rfl⟩
  | fault f => exact nomatch f
  | refused r =>
    have hnot := (exec_refused hinv.mem_wf h).2
    rw [hwf] at hnot
    exact Bool.noConfusion hnot

/-! ## The total of a read plan (R5, R140) -/

/-- A plan without a stretchy token has no stretchy index. -/
theorem stretchyIndices_of_fixed {plan : List Token} (hf : Spec.FixedPlan plan) (j : Nat) :
    stretchyIndices j plan = [] := by
  induction plan generalizing j with
  | nil => rfl
  | cons t ts ih =>
    obtain ⟨n, hn⟩ := Option.ne_none_iff_exists'.mp (hf t (by simp))
    simp [stretchyIndices, hn, ih fun u hu => hf u (by simp [hu])]

/-- The machine's total of a plan is the sum of its lengths. -/
theorem planTotal_eq_planLength (plan : List Token) : planTotal plan = Spec.planLength plan := by
  induction plan with
  | nil => rfl
  | cons t ts ih => simp [planTotal, Spec.planLength, ih]

/-- A plan without a stretchy token passes the plan-level checks P1 and P2. -/
theorem readPlan_of_fixed {plan : List Token} (hf : Spec.FixedPlan plan) (s : State) (p : Nat) :
    readPlan s plan p = readResolved s plan p := by
  simp [readPlan, stretchyIndices_of_fixed hf]

/-- Such a plan is refused at every position where its total is above `MAX_LEN`. -/
theorem readPlan_refuse_of_total {s : State} {plan : List Token} (hf : Spec.FixedPlan plan)
    (hw : s.params.within (Spec.planLength plan) = false) (p : Nat) : readPlan s plan p = .refuse := by
  simp [readPlan_of_fixed hf, readResolved, planTotal_eq_planLength, hw]

/-- Settles O57: the comparison of the total comes before the first entry (log 10). -/
theorem planTotalAboveTheLimitIsRefused : Obligations.PlanTotalAboveTheLimitIsRefused := by
  intro s plan hfault hf hw
  have hrefuse := readPlan_refuse_of_total hf hw
  exact ⟨gated_conclude_eq_refused.mpr ⟨hfault, hrefuse s.pos, rfl⟩,
    gated_conclude_eq_refused.mpr ⟨hfault, hrefuse s.pos, rfl⟩,
    gated_conclude_eq_refused.mpr ⟨hfault, hrefuse 0, rfl⟩⟩

/-! ## What `State.reset` is the reset of (R4, R5) -/

/-- Settles O56: `State.reset` is the reset of `Config.params`, whose limit is the default; no proof sees its `HOSTORD`. -/
theorem resetInstanceHasTheDefaultLimit : Obligations.ResetInstanceHasTheDefaultLimit :=
  ⟨rfl, rfl, rfl⟩

end Sys2Proof.Machine
end

section
/-! The statements of 10_state (R20 to R25, R29): what a command and a step keep, who writes which state element, what the
result port carries, and that no command reads it. -/

namespace Sys2Proof.Machine

/-! ## The invariant (R21, R5) -/

/-- The invariant does not speak of the ports, so a reply leaves it as it is. -/
theorem State.Inv.respond {s : State} (hs : s.Inv) (r : Result) : (s.respond r).Inv := ⟨hs.pos_le, hs.mem_wf⟩

theorem State.Inv.raiseError {s : State} (hs : s.Inv) (e : Error) (j : Option Nat) : (s.raiseError e j).Inv :=
  ⟨hs.pos_le, hs.mem_wf⟩

theorem State.Inv.with_port {s : State} (hs : s.Inv) (ts : List Transaction) : { s with port := ts }.Inv :=
  ⟨hs.pos_le, hs.mem_wf⟩

/-- The cursor may move to any position inside `SEQ`. -/
theorem State.Inv.with_pos {s : State} (hs : s.Inv) {p : Nat} (hp : p ≤ s.seq.length) : { s with pos := p }.Inv :=
  ⟨hp, hs.mem_wf⟩

/-- Settles O2: the empty sequence is within every limit, and the cursor stands at its end. -/
theorem resetMeetsTheInvariant : Obligations.ResetMeetsTheInvariant :=
  fun prm => ⟨⟨Nat.zero_le _, reset_memory_wf prm⟩, rfl⟩

/-- Every command keeps the invariant: a read ends inside `SEQ`, SETPOS checks its position, BIND its sequence. -/
theorem exec_keeps_inv {i : Instr} {s t : State} (hs : s.Inv) (h : exec i s = .next t) : t.Inv := by
  rcases exec_effect h with ⟨e, j, rfl, -⟩ | ⟨r, rfl, -⟩ | ⟨r, p, rfl, -, hp, -⟩ | ⟨p, -, -, hp, rfl⟩ |
    ⟨o, -, ⟨-, -, rfl⟩ | ⟨-, rfl⟩⟩ | ⟨q, -, hq, rfl⟩
  · exact hs.raiseError e j
  · exact hs.respond r
  · exact (hs.with_pos (hp hs.pos_le)).respond r
  · exact (hs.with_pos (by omega)).respond .none
  · exact ⟨hs.pos_le, hs.mem_wf⟩
  · exact ⟨hs.pos_le, hs.mem_wf⟩
  · exact ⟨Nat.zero_le _, hq⟩

/-- Settles O41: taking a transaction moves neither `pos` nor `SEQ`; the rest is the command's. -/
theorem stepKeepsTheInvariant : Obligations.StepKeepsTheInvariant := by
  intro s s' hs h
  rcases step_effect h with ⟨-, rfl⟩ | ⟨t, ts, -, ⟨c, rfl⟩ | ⟨i, -, hx⟩⟩
  · exact hs
  · exact (hs.with_port ts).raiseError _ _
  · exact exec_keeps_inv (hs.with_port ts) hx

/-! ## The hazard flag (R23, R145) -/

/-- No command clears `FAULT`. -/
theorem exec_keeps_fault {i : Instr} {s t : State} (h : exec i s = .next t) (hf : s.fault = true) : t.fault = true := by
  rcases exec_effect h with ⟨e, j, rfl, -⟩ | ⟨r, rfl, -⟩ | ⟨r, p, rfl, -⟩ | ⟨p, -, -, -, rfl⟩ |
    ⟨o, -, ⟨-, -, rfl⟩ | ⟨-, rfl⟩⟩ | ⟨q, -, -, rfl⟩ <;> simp [hf]

/-- The one command that sets `FAULT` is the hazardous origin switch. -/
theorem hazardous_of_exec_sets_fault {i : Instr} {s t : State} (h : exec i s = .next t) (hf : s.fault = false)
    (ht : t.fault = true) : hazardous i s := by
  rcases exec_effect h with ⟨e, j, rfl, -⟩ | ⟨r, rfl, -⟩ | ⟨r, p, rfl, -⟩ | ⟨p, -, -, -, rfl⟩ |
    ⟨o, rfl, ⟨ho, hp, rfl⟩ | ⟨-, rfl⟩⟩ | ⟨q, -, -, rfl⟩
  case inr.inr.inr.inr.inl.inl => exact ⟨o, rfl, ho, hp⟩
  all_goals simp [hf] at ht

/-- Settles O42: an idle step and an illegal command leave `FAULT` alone; the rest is the command's. -/
theorem faultIsStickyAndSetBySwitchOnly : Obligations.FaultIsStickyAndSetBySwitchOnly := by
  intro s s' h
  rcases step_effect h with ⟨-, rfl⟩ | ⟨t, ts, hport, ⟨c, rfl⟩ | ⟨i, hd, hx⟩⟩
  · exact ⟨id, fun hf ht => by simp [hf] at ht⟩
  · exact ⟨id, fun hf ht => by simp [hf] at ht⟩
  · refine ⟨fun hf => exec_keeps_fault hx hf, fun hf ht => ?_⟩
    obtain ⟨o, rfl, ho, hp⟩ := hazardous_of_exec_sets_fault hx hf ht
    exact ⟨t, ts, o, hport, hd, ho, hp⟩

/-! ## Who writes which state element (R20 to R22) -/

/-- Settles O43: of what a command can have done, each state element is written in the cases of its own commands only. -/
theorem stateElementsHaveTheirWriters : Obligations.StateElementsHaveTheirWriters := by
  intro i s t h
  rcases exec_effect h with ⟨e, j, rfl, -⟩ | ⟨r, rfl, -⟩ | ⟨r, p, rfl, -, -, hi⟩ | ⟨p, rfl, -, -, rfl⟩ |
    ⟨o, rfl, ⟨-, -, rfl⟩ | ⟨-, rfl⟩⟩ | ⟨q, rfl, -, rfl⟩
  · simp
  · simp
  · exact ⟨by simp, by simp, fun _ => hi.imp_right .inl⟩
  · simp
  · simp
  · simp
  · simp

/-! ## What a step keeps and that it replies (R25, R30, R55) -/

/-- A command leaves the parameters and the command port as they are and always replies. -/
theorem exec_keeps_params_port_and_replies {i : Instr} {s t : State} (h : exec i s = .next t) :
    t.params = s.params ∧ t.port = s.port ∧ t.reply ≠ none := by
  rcases exec_effect h with ⟨e, j, rfl, -⟩ | ⟨r, rfl, -⟩ | ⟨r, p, rfl, -⟩ | ⟨p, -, -, -, rfl⟩ |
    ⟨o, -, ⟨-, -, rfl⟩ | ⟨-, rfl⟩⟩ | ⟨q, -, -, rfl⟩ <;> simp

/-- Settles O44: the step takes one transaction off the port, and its command or its rejection replies. -/
theorem stepKeepsParametersAndOrder : Obligations.StepKeepsParametersAndOrder := by
  intro s s' h
  rcases step_effect h with ⟨hport, rfl⟩ | ⟨t, ts, hport, ⟨c, rfl⟩ | ⟨i, -, hx⟩⟩
  · simp [hport]
  · simp [hport]
  · obtain ⟨hparams, hrest, hreply⟩ := exec_keeps_params_port_and_replies hx
    exact ⟨hparams, by rw [hrest, hport, List.tail_cons], fun _ => hreply⟩

/-! ## The kind of a command's result (R29) -/

section
variable {α : Type} {s t : State} {x : Staged α} {k : α → State} {f : α → Result} {r : Result}

/-- A pipeline's success on the result port: the result is the one that its value gives. -/
theorem conclude_success (hk : ∀ a, (k a).reply = some (.ok (f a))) (ht : t.reply = some (.ok r))
    (h : conclude s x k = .next t) : ∃ a, x = .ok a ∧ r = f a := by
  rcases conclude_eq_next.mp h with ⟨a, ha, rfl⟩ | ⟨e, j, -, rfl⟩
  · exact ⟨a, ha, by simpa [hk] using ht.symm⟩
  · simp at ht

/-- The same behind the hazard gate, which answers an error or lets the command run (R121). -/
theorem gated_conclude_success (hk : ∀ a, (k a).reply = some (.ok (f a))) (ht : t.reply = some (.ok r))
    (h : hazardGate s (conclude s x k) = .next t) : ∃ a, x = .ok a ∧ r = f a := by
  rcases hazardGate_eq_next.mp h with ⟨-, rfl⟩ | ⟨-, hc⟩
  · simp at ht
  · exact conclude_success hk ht hc

end

/-- A list command that answers a list has read one integer for each entry of its plan (R140). -/
theorem gated_readPlan_success {s t : State} {plan : List Token} {p : Nat} {k : List Int × Nat → State} {r : Result}
    (hk : ∀ a, (k a).reply = some (.ok (.ints a.1))) (ht : t.reply = some (.ok r))
    (h : hazardGate s (conclude s (readPlan s plan p) k) = .next t) : ∃ vs, r = .ints vs ∧ vs.length = plan.length := by
  obtain ⟨a, ha, hr⟩ := gated_conclude_success (f := fun a => .ints a.1) hk ht h
  exact ⟨a.1, hr, (readPlan_ok ha).1⟩

theorem execSetpos_eq_next {p : Int} {s t : State} :
    execSetpos p s = .next t ↔
      ((0 ≤ p ∧ p ≤ s.seq.length) ∧ t = ({ s with pos := p.toNat }.respond .none)) ∨
      (¬ (0 ≤ p ∧ p ≤ s.seq.length) ∧ t = s.raiseError .valuePosRange none) := by
  unfold execSetpos
  split_ifs with hp <;> simp [hp, eq_comm]

theorem execSetorigin_eq_next {o : Origin} {s t : State} :
    execSetorigin o s = .next t ↔
      ((o ≠ s.origin ∧ s.pos ≠ 0) ∧ t = ({ s with origin := o }.setFault.raiseError (.originHazard .switch) none)) ∨
      (¬ (o ≠ s.origin ∧ s.pos ≠ 0) ∧ t = ({ s with origin := o }.respond .none)) := by
  unfold execSetorigin
  split_ifs with ho <;> simp [ho, eq_comm]

theorem execBind_eq_next {q : Bits} {s t : State} :
    execBind q s = .next t ↔
      s.params.within q.length = true ∧ t = ({ s with seq := q, pos := 0 }.respond .none) := by
  unfold execBind
  split_ifs with hq <;> simp [hq, eq_comm]

/-- Settles O50: the value of each pipeline has the kind of its command, and the control commands answer nothing. -/
theorem resultsHaveTheirKind : Obligations.ResultsHaveTheirKind := by
  intro s t r ht
  have noResult : ∀ {u : State}, t = u.respond .none → r = .none := by
    rintro u rfl; simpa using ht.symm
  refine ⟨fun dt len v h => ?enc, fun plan h => ?pack, fun dt F h => ?dec, fun dt len h => ?read, fun dt len h => ?peek,
    fun h => ?getpos, fun plan h => ?readlist, fun plan h => ?peeklist, fun plan h => ?unpack, fun p h => ?setpos,
    fun o h => ?setorigin, fun q h => ?bind⟩
  case enc =>
    obtain ⟨F, -, hr⟩ := conclude_success (fun _ => rfl) ht (exec_enc .. ▸ h)
    exact ⟨F, hr⟩
  case pack =>
    obtain ⟨F, -, hr⟩ := conclude_success (fun _ => rfl) ht h
    exact ⟨F, hr⟩
  case dec =>
    obtain ⟨v, -, hr⟩ := conclude_success (fun _ => rfl) ht (exec_dec .. ▸ h)
    exact ⟨v, hr⟩
  case read =>
    obtain ⟨a, -, hr⟩ := gated_conclude_success (fun _ => rfl) ht (exec_read .. ▸ h)
    exact ⟨a.1, hr⟩
  case peek =>
    obtain ⟨a, -, hr⟩ := gated_conclude_success (fun _ => rfl) ht (exec_peek .. ▸ h)
    exact ⟨a.1, hr⟩
  case getpos =>
    obtain rfl := Host.Outcome.next.inj h
    exact ⟨s.pos, by simpa using ht.symm⟩
  case readlist => exact gated_readPlan_success (fun _ => rfl) ht h
  case peeklist => exact gated_readPlan_success (fun _ => rfl) ht h
  case unpack => exact gated_readPlan_success (fun _ => rfl) ht h
  case setpos =>
    rcases execSetpos_eq_next.mp h with ⟨-, hu⟩ | ⟨-, rfl⟩
    · exact noResult hu
    · simp at ht
  case setorigin =>
    rcases execSetorigin_eq_next.mp h with ⟨-, rfl⟩ | ⟨-, hu⟩
    · simp at ht
    · exact noResult hu
  case bind => exact noResult (execBind_eq_next.mp h).2

/-! ## No command reads the reply (R24) -/

/-- An error replaces the reply, so the one before it does not matter. -/
theorem conclude_with_reply {α : Type} (s : State) (r : Option Reply) (x : Staged α) (k : α → State) :
    conclude { s with reply := r } x k = conclude s x k := by
  cases x <;> rfl

theorem hazardGate_with_reply (s : State) (r : Option Reply) (k : Outcome) :
    hazardGate { s with reply := r } k = hazardGate s k := rfl

theorem readCore_with_reply (s : State) (r : Option Reply) (dt : Dtype) (len : Option Nat) (p : Nat) :
    readCore { s with reply := r } dt len p = readCore s dt len p :=
    readCore_congr (s := s) (s' := { s with reply := r }) rfl rfl rfl dt len p

theorem readPlan_with_reply (s : State) (r : Option Reply) (plan : List Token) (p : Nat) :
    readPlan { s with reply := r } plan p = readPlan s plan p :=
    readPlan_congr (s := s) (s' := { s with reply := r }) rfl rfl rfl plan p

/-- Settles O51: every pipeline gives the same value, and what ends the command puts a reply of its own. -/
theorem noCommandReadsTheReply : Obligations.NoCommandReadsTheReply := by
  intro i s r
  rcases instr_shapes i with
    ⟨dt, len, v, rfl⟩ | ⟨dt, F, rfl⟩ | ⟨dt, len, rfl⟩ | ⟨dt, len, rfl⟩ | ⟨p, rfl⟩ | ⟨p, rfl⟩ | ⟨p, rfl⟩ | ⟨p, rfl⟩ |
    ⟨p, rfl⟩ | ⟨o, rfl⟩ | ⟨q, rfl⟩ | rfl
  · rw [exec_enc, exec_enc, encCommand, conclude_with_reply]; rfl
  · rw [exec_dec, exec_dec, decCommand, conclude_with_reply]; rfl
  · rw [exec_read, exec_read, readCommand, hazardGate_with_reply, conclude_with_reply, readCore_with_reply]; rfl
  · rw [exec_peek, exec_peek, peekCommand, hazardGate_with_reply, conclude_with_reply, readCore_with_reply]; rfl
  · rw [exec, execReadlist, hazardGate_with_reply, conclude_with_reply, readPlan_with_reply]; rfl
  · rw [exec, execPeeklist, hazardGate_with_reply, conclude_with_reply, readPlan_with_reply]; rfl
  · rw [exec, execUnpack, hazardGate_with_reply, conclude_with_reply, readPlan_with_reply]; rfl
  · rw [exec, execPack, conclude_with_reply]; rfl
  · rfl
  · rfl
  · rfl
  · rfl

end Sys2Proof.Machine
end

section
/-! The statements of 20_memory (R40 to R48, R55): host views, the reads of `SEQ`, the byte orders, the commands of the ports
alone, and the step. -/

namespace Sys2Proof.Machine

/-! ## The commands of the ports alone (R40, R112, R113) -/

/-- A pipeline whose value is put into another form. -/
def Staged.map {α β : Type} (f : α → β) : Staged α → Staged β
  | .ok a      => .ok (f a)
  | .raise e j => .raise e j
  | .refuse    => .refuse

/-- A command may put its value into another form before or after it ends. -/
theorem conclude_map {α β : Type} (s : State) (x : Staged α) (f : α → β) (k : β → State) :
    conclude s (x.map f) k = conclude s x fun a => k (f a) := by
  cases x <;> rfl

/-- A command of the ports alone runs, in every state with the same parameters, one and the same pipeline and responds with
its result. -/
theorem exec_portsOnly {i : Instr} (hi : Spec.PortsOnly i) (prm : Params) :
    ∃ x : Staged Result, ∀ s : State, s.params = prm → exec i s = conclude s x s.respond := by
  rcases hi with ⟨dt, len, v, rfl⟩ | ⟨dt, F, rfl⟩ | ⟨plan, rfl⟩
  · refine ⟨(encCore prm dt len v).map .field, fun s hs => ?_⟩
    rw [exec_enc, encCommand, hs, conclude_map]
  · refine ⟨(decCore prm dt F).map .int, fun s hs => ?_⟩
    rw [exec_dec, decCommand, hs, conclude_map]
  · refine ⟨(packCore prm plan).map .field, fun s hs => ?_⟩
    rw [exec, execPack, hs, conclude_map]

/-- Settles O20: both states run the same pipeline, which replies or refuses. -/
theorem codecAndPackReadParametersOnly : Obligations.CodecAndPackReadParametersOnly := by
  intro s s' i hi hparams
  obtain ⟨x, hx⟩ := exec_portsOnly hi s.params
  rw [hx s rfl, hx s' hparams]
  refine ⟨fun t h => ?_, fun r h => ?_⟩
  · rcases conclude_eq_next.mp h with ⟨a, rfl, rfl⟩ | ⟨e, j, rfl, rfl⟩ <;> rfl
  · exact conclude_eq_refused.mpr (conclude_eq_refused.mp h)

/-! ## The runs that reads of `SEQ` take (R43 to R45) -/

theorem State.fieldStart_msb0 {s : State} (h : s.origin = .msb0) (p n : Nat) : s.fieldStart p n = p := by
  simp [State.fieldStart, h]

theorem State.fieldStart_lsb0 {s : State} (h : s.origin = .lsb0) (p n : Nat) :
    s.fieldStart p n = s.seq.length - p - n := by
  simp [State.fieldStart, h]

/-- Settles O21: a read counts its bits from where the origin lets its field start. -/
theorem memReadTakesTheStoredRun : Obligations.MemReadTakesTheStoredRun := by
  intro s p n hle
  refine ⟨length_memRead hle, fun i hi => ⟨fun ho => ?_, fun ho => ?_⟩⟩
  · rw [getElem?_memRead s p n i hi, State.fieldStart_msb0 ho]
  · rw [getElem?_memRead s p n i hi, State.fieldStart_lsb0 ho]

/-- Where the second of two runs starts at the end of the first, the two put together are one run. -/
theorem memRead_append_memRead {s : State} {p q r m n : Nat} (hfirst : s.fieldStart p (m + n) = s.fieldStart q m)
    (hsecond : s.fieldStart r n = s.fieldStart q m + m) : s.memRead p (m + n) = s.memRead q m ++ s.memRead r n := by
  simp only [State.memRead, hfirst, hsecond, List.take_add, List.drop_drop]

/-- The run of `n₁ + n₂` bits with `ORIGIN` = MSB0 (R45). -/
theorem memRead_add_msb0 {s : State} (h : s.origin = .msb0) (p n₁ n₂ : Nat) :
    s.memRead p (n₁ + n₂) = s.memRead p n₁ ++ s.memRead (p + n₁) n₂ :=
  memRead_append_memRead (by simp only [State.fieldStart_msb0 h]) (by simp only [State.fieldStart_msb0 h])

/-- The run of `n₁ + n₂` bits with `ORIGIN` = LSB0: the later read takes the stored bits before those of the earlier (R45). -/
theorem memRead_add_lsb0 {s : State} (h : s.origin = .lsb0) {p n₁ n₂ : Nat} (hle : p + n₁ + n₂ ≤ s.seq.length) :
    s.memRead p (n₁ + n₂) = s.memRead (p + n₁) n₂ ++ s.memRead p n₁ := by
  rw [Nat.add_comm n₁ n₂]
  apply memRead_append_memRead <;> simp only [State.fieldStart_lsb0 h] <;> omega

/-- Settles O22: one bit is a read of length 1, and the two runs meet where one read ends and the next begins. -/
theorem consecutiveReadsTakeAdjacentRuns : Obligations.ConsecutiveReadsTakeAdjacentRuns := by
  intro s
  refine ⟨fun i hi => ?_, fun p n₁ n₂ hle => ⟨fun ho => memRead_add_msb0 ho p n₁ n₂, fun ho => memRead_add_lsb0 ho hle⟩⟩
  obtain ⟨hmsb, hlsb⟩ := (memReadTakesTheStoredRun s i 1 hi).2 0 Nat.one_pos
  exact ⟨hmsb, fun ho => Nat.sub_right_comm s.seq.length i 1 ▸ hlsb ho⟩

/-! ## Host buffers (R41, R42) -/

theorem length_of_mem_map_byteBits {buf : List Byte} : ∀ B ∈ buf.map byteBits, B.length = 8 := by
  rintro B hB
  obtain ⟨b, -, rfl⟩ := List.mem_map.mp hB
  rfl

/-- The bits of a byte are those of its value, the most significant first (R8, R41). -/
theorem byteBits_eq_msbfirst (b : Byte) : byteBits b = msbfirst 8 b.toNat := rfl

/-- Bit `t` of a byte, counted from its most significant. -/
theorem getElem?_byteBits (b : Byte) {t : Nat} (ht : t < 8) : (byteBits b)[t]? = some (b.getLsbD (7 - t)) := by
  rw [byteBits_eq_msbfirst, getElem?_msbfirst 8 _ t ht, BitVec.testBit_toNat]

theorem length_bufferBits (buf : List Byte) : (bufferBits buf).length = 8 * buf.length := by
  rw [bufferBits, List.flatMap_def, length_flatten_bytes _ length_of_mem_map_byteBits, List.length_map]

/-- Bit `i` of a buffer is bit `i % 8` of its byte `i / 8` (R41). -/
theorem getElem?_bufferBits {buf : List Byte} {i : Nat} (hi : i / 8 < buf.length) :
    (bufferBits buf)[i]? = some (buf[i / 8].getLsbD (7 - i % 8)) := by
  have ht : i % 8 < 8 := Nat.mod_lt i (by decide)
  conv_lhs => rw [bufferBits, List.flatMap_def, ← Nat.div_add_mod i 8]
  rw [getElem?_flatten_bytes _ length_of_mem_map_byteBits _ _ ht (by rwa [List.length_map]), List.getElem?_map,
    List.getElem?_eq_getElem hi, Option.map_some, Option.bind_some, getElem?_byteBits _ ht]

/-- Settles O52: a view that lies inside its buffer is a run of the buffer's bits. -/
theorem viewBitsAreBufferBits : Obligations.ViewBitsAreBufferBits := by
  intro v hv
  have hle : v.offset + v.length ≤ 8 * v.buffer.length := of_decide_eq_true hv
  refine ⟨?_, fun k hk => ?_⟩
  · rw [viewBits, List.length_take, List.length_drop, length_bufferBits]; omega
  · have hbyte : (v.offset + k) / 8 < v.buffer.length := by omega
    refine ⟨v.buffer[(v.offset + k) / 8], List.getElem?_eq_getElem hbyte, ?_⟩
    rw [viewBits, List.getElem?_take_of_lt hk, List.getElem?_drop, getElem?_bufferBits hbyte]

/-- A field of eight bits is the bits of the byte of its value. -/
theorem byteBits_ofNat_uval {B : Bits} (h : B.length = 8) : byteBits (BitVec.ofNat 8 (uval B)) = B := by
  have hlt : uval B < 2 ^ 8 := h ▸ uval_lt B
  rw [byteBits_eq_msbfirst, BitVec.toNat_ofNat, Nat.mod_eq_of_lt hlt, ← h, msbfirst_uval]

theorem length_padToBytes_mod (F : Bits) : (padToBytes F).length % 8 = 0 := by
  simp only [padToBytes, List.length_append, List.length_replicate]; omega

/-- The bytes of a field hold the padded field and nothing else (R42). -/
theorem bufferBits_toBytes (F : Bits) : bufferBits (toBytes F) = padToBytes F := by
  have hlen : (padToBytes F).length = 8 * ((padToBytes F).length / 8) := by have := length_padToBytes_mod F; omega
  have hbytes : (toBytes F).map byteBits = bytesOf ((padToBytes F).length / 8) (padToBytes F) := by
    rw [toBytes, List.map_map]
    exact (List.map_congr_left fun B hB => byteBits_ofNat_uval (length_of_mem_bytesOf _ _ B hlen hB)).trans (List.map_id _)
  rw [bufferBits, List.flatMap_def, hbytes, flatten_bytesOf _ _ hlen]

/-- Settles O53: `k` is what the length lacks to the next multiple of 8. -/
theorem bytesOfAFieldArePaddedAtTheEnd : Obligations.BytesOfAFieldArePaddedAtTheEnd :=
  fun F => ⟨(8 - F.length % 8) % 8, by omega, by omega, bufferBits_toBytes F⟩

/-! ## The step (R55) -/

/-- Settles O3: the transaction on the port is taken, decoded and run. -/
theorem stepRunsTheDecodedCommand : Obligations.StepRunsTheDecodedCommand := by
  intro s t ts i hport hdecode
  simp only [step, State.takeTransaction_cons hport, hdecode]

/-! ## Byte orders (R47, R48)

Two byte orders are interchangeable where the whole-byte rule judges them alike and the byte-order stage gives the same field. -/

section
variable {sg : Sign} {bo bo' : ByteOrder} {v : Int}

theorem exec_enc_of_same_order {s : State} {n : Nat} (hmis : misaligned bo n = misaligned bo' n)
    (hcanon : ∀ F : Bits, F.length = n → canon s.params bo F = canon s.params bo' F) :
    exec (Instr.enc ⟨sg, bo⟩ (some n) v) s = exec (Instr.enc ⟨sg, bo'⟩ (some n) v) s := by
  simp only [exec_enc, encCommand, encCore, hmis, hcanon _ (length_msbfirst n _)]

theorem decCore_of_same_order {prm : Params} {F : Bits} (hmis : misaligned bo F.length = misaligned bo' F.length)
    (hcanon : canon prm bo F = canon prm bo' F) : decCore prm ⟨sg, bo⟩ F = decCore prm ⟨sg, bo'⟩ F := by
  simp only [decCore, hmis, hcanon]

theorem exec_dec_of_same_order {s : State} {F : Bits} (hmis : misaligned bo F.length = misaligned bo' F.length)
    (hcanon : canon s.params bo F = canon s.params bo' F) :
    exec (Instr.dec ⟨sg, bo⟩ F) s = exec (Instr.dec ⟨sg, bo'⟩ F) s := by
  simp only [exec_dec, decCommand, decCore_of_same_order hmis hcanon]

end

/-- The byte order of the host (R47). -/
def hostByteOrder (prm : Params) : ByteOrder := if prm.hostOrd = .big then .be else .le

theorem resolve_eq_hostByteOrder (prm : Params) (o : ByteOrder) :
    resolve prm o = if o = .ne then hostByteOrder prm else o := by
  cases o with
  | bit | be | le => rfl
  | ne => cases h : prm.hostOrd <;> simp [resolve, hostByteOrder, h]

theorem hostByteOrder_eq (prm : Params) : hostByteOrder prm = .be ∨ hostByteOrder prm = .le := by
  unfold hostByteOrder
  split_ifs <;> simp

/-- The byte-order stage treats `ne` as the host's order, which is resolved to itself. -/
theorem canon_ne (prm : Params) (F : Bits) : canon prm .ne F = canon prm (hostByteOrder prm) F := by
  have hres : resolve prm .ne = resolve prm (hostByteOrder prm) := by
    rcases hostByteOrder_eq prm with h | h <;> simp [resolve_eq_hostByteOrder, h]
  rw [canon, canon, hres]

/-- The whole-byte rule is the same for `ne` and the host's order. -/
theorem misaligned_ne (prm : Params) (n : Nat) : misaligned .ne n = misaligned (hostByteOrder prm) n := by
  rcases hostByteOrder_eq prm with h | h <;> simp [misaligned, h]

theorem exec_dec_ne (s : State) (sg : Sign) (F : Bits) :
    exec (Instr.dec ⟨sg, .ne⟩ F) s = exec (Instr.dec ⟨sg, hostByteOrder s.params⟩ F) s :=
  exec_dec_of_same_order (misaligned_ne s.params _) (canon_ne s.params F)

theorem readCore_ne (s : State) (sg : Sign) (len : Option Nat) (p : Nat) :
    readCore s ⟨sg, .ne⟩ len p = readCore s ⟨sg, hostByteOrder s.params⟩ len p := by
  simp only [readCore, decCore_of_same_order (misaligned_ne s.params _) (canon_ne s.params _)]

theorem exec_read_ne (s : State) (sg : Sign) (len : Option Nat) :
    exec (Instr.read ⟨sg, .ne⟩ len) s = exec (Instr.read ⟨sg, hostByteOrder s.params⟩ len) s := by
  simp only [exec_read, readCommand, readCore_ne]

theorem exec_peek_ne (s : State) (sg : Sign) (len : Option Nat) :
    exec (Instr.peek ⟨sg, .ne⟩ len) s = exec (Instr.peek ⟨sg, hostByteOrder s.params⟩ len) s := by
  simp only [exec_peek, peekCommand, readCore_ne]

/-- Without a length ENC fails before it looks at the byte order (R80 stage E1). -/
theorem exec_enc_ne (s : State) (sg : Sign) (len : Option Nat) (v : Int) :
    exec (Instr.enc ⟨sg, .ne⟩ len v) s = exec (Instr.enc ⟨sg, hostByteOrder s.params⟩ len v) s := by
  cases len with
  | none => simp only [exec_enc, encCommand, encCore]
  | some n => exact exec_enc_of_same_order (misaligned_ne s.params n) fun F _ => canon_ne s.params F

/-- Settles O16: all four pipelines meet the byte order in the whole-byte rule and in the byte-order stage alone. -/
theorem nativeOrderIsTheHostsOrder : Obligations.NativeOrderIsTheHostsOrder :=
  fun s sg len v F => ⟨resolve_eq_hostByteOrder s.params, exec_enc_ne s sg len v, exec_dec_ne s sg F,
    exec_read_ne s sg len, exec_peek_ne s sg len⟩

/-- Whole bytes pass the whole-byte rule in every order (R50). -/
theorem misaligned_eq_of_wholeBytes {n : Nat} (h : n % 8 = 0) (bo bo' : ByteOrder) :
    misaligned bo n = misaligned bo' n := by
  simp [misaligned, h]

/-- One byte in reverse order is that byte. -/
theorem byterev_one_byte {F : Bits} (h : F.length = 8) : byterev F = F := by
  rw [byterev_eq_flatten (m := 1) h, bytesOf, bytesOf, List.reverse_singleton, List.flatten_singleton,
    List.take_of_length_le h.le]

theorem canon_le_one_byte (prm : Params) {F : Bits} (h : F.length = 8) : canon prm .le F = F := byterev_one_byte h

/-- Settles O17: on whole bytes the rule of R50 is met, and the field stays as it is. -/
theorem byteOrdersAgreeWhereTheyShould : Obligations.ByteOrdersAgreeWhereTheyShould := by
  intro s sg n v F
  refine ⟨fun hn => ?_, fun hF => ?_, ?_, fun hF => ?_⟩
  · exact exec_enc_of_same_order (misaligned_eq_of_wholeBytes hn _ _) fun _ _ => rfl
  · exact exec_dec_of_same_order (misaligned_eq_of_wholeBytes hF _ _) rfl
  · exact exec_enc_of_same_order (misaligned_eq_of_wholeBytes rfl _ _) fun _ hG => canon_le_one_byte s.params hG
  · exact exec_dec_of_same_order (misaligned_eq_of_wholeBytes (by rw [hF]) _ _) (canon_le_one_byte s.params hF)

end Sys2Proof.Machine
end

section
/-! The statements of 30_encoding (R65 to R75): the opcode map read by the field layouts, one transaction for each command,
illegal commands, lists of one entry, and the text of tokens and pseudo-commands. -/

namespace Sys2Proof

/-! ## Command words (R61 to R65, R71) -/

/-- The command word of an operation: the first word of its family in the opcode map (R71), and the code of its dtype (R70). -/
def Op.word : Op → Byte
  | .enc dt    => 0x00#8 + 4#8 * dt.code
  | .dec dt    => 0x20#8 + 4#8 * dt.code
  | .read dt   => 0x40#8 + dt.code
  | .peek dt   => 0x48#8 + dt.code
  | .readlist  => 0x50#8
  | .peeklist  => 0x58#8
  | .unpack    => 0x60#8
  | .pack      => 0x68#8
  | .setpos    => 0x80#8
  | .setorigin => 0x81#8
  | .bind      => 0x82#8
  | .getpos    => 0x83#8

/-- The field layouts read the word of an operation as that operation. -/
@[simp] theorem decodeOp_word (op : Op) : decodeOp op.word = some op := by
  cases op with
  | enc dt | dec dt | read dt | peek dt => rcases dt with ⟨_ | _, _ | _ | _ | _⟩ <;> rfl
  | _ => rfl

/-- No other word is read as that operation: every bit of a word counts. -/
theorem word_of_decodeOp {cmd : Byte} {op : Op} (h : decodeOp cmd = some op) : op.word = cmd := by
  have key : ∀ cmd : Byte, ∀ op ∈ decodeOp cmd, op.word = cmd := by decide +kernel
  exact key cmd op h

/-- The words that are read as no operation are the reserved ones (R65, R69). -/
theorem decodeOp_eq_none_iff (cmd : Byte) : decodeOp cmd = none ↔ Spec.Reserved cmd := by
  revert cmd
  decide +kernel

theorem decode_of_reserved {t : Transaction} (h : Spec.Reserved t.cmd) : decode t = .error (.illegalCommand t.cmd) := by
  simp only [decode, (decodeOp_eq_none_iff t.cmd).mpr h]

theorem decode_word (op : Op) (r : Record) : decode ⟨op.word, r⟩ = decodeRecord op.word op r := by
  simp only [decode, decodeOp_word]

/-- What a transaction that decodes to a command consists of: an operation's word and a record that gives the command. -/
theorem decode_eq_ok {t : Transaction} {i : Instr} (h : decode t = .ok i) :
    ∃ op, t.cmd = op.word ∧ decodeRecord t.cmd op t.operands = .ok i := by
  unfold decode at h
  split at h
  case h_1 => exact absurd h (by simp)
  case h_2 op hop => exact ⟨op, (word_of_decodeOp hop).symm, h⟩

/-! ## Operand records (R66, R67) -/

/-- A legal token code is the code of the dtype that it is read as. -/
theorem encodeToken_of_decodeToken {r : RawToken} {t : Token} (h : decodeToken r = some t) : encodeToken t = r := by
  have key : ∀ tk : Byte, tk.extractLsb' 3 5 = 0b00000#5 →
      Dtype.code ⟨decodeSign (tk.getLsbD 2), decodeByteOrder (tk.extractLsb' 0 2)⟩ = tk := by decide +kernel
  unfold decodeToken at h
  split at h
  case isTrue hlegal =>
    obtain rfl := Option.some.inj h
    rw [encodeToken, key r.tk hlegal]
  case isFalse => exact absurd h (by simp)

theorem map_encodeToken_of_decodePlan {raw : List RawToken} {plan : List Token} (h : decodePlan raw = some plan) :
    plan.map encodeToken = raw := by
  induction raw generalizing plan with
  | nil => obtain rfl := Option.some.inj h; rfl
  | cons r raw ih =>
    rw [decodePlan] at h
    split at h
    case h_1 t ts ht hts =>
      obtain rfl := Option.some.inj h
      rw [List.map_cons, encodeToken_of_decodeToken ht, ih hts]
    case h_2 => exact absurd h (by simp)

theorem map_encodeToken_of_decodePackPlan {raw : List (RawToken × Int)} {plan : List (Token × Int)}
    (h : decodePackPlan raw = some plan) : plan.map (fun e => (encodeToken e.1, e.2)) = raw := by
  induction raw generalizing plan with
  | nil => obtain rfl := Option.some.inj h; rfl
  | cons e raw ih =>
    obtain ⟨r, v⟩ := e
    rw [decodePackPlan] at h
    split at h
    case h_1 t ts ht hts =>
      obtain rfl := Option.some.inj h
      rw [List.map_cons, encodeToken_of_decodeToken ht, ih hts]
    case h_2 => exact absurd h (by simp)

/-- An illegal token anywhere in a plan makes the plan illegal (R67). -/
theorem decodePlan_eq_none {tok : RawToken} (htok : 8 ≤ tok.tk.toNat) {plan : List RawToken} (h : tok ∈ plan) :
    decodePlan plan = none := by
  induction h with
  | head ts => rw [decodePlan, decodeToken_of_ge htok]
  | tail t _ ih => cases ht : decodeToken t <;> simp only [decodePlan, ht, ih]

theorem decodePackPlan_eq_none {tok : RawToken} (htok : 8 ≤ tok.tk.toNat) {v : Int} {plan : List (RawToken × Int)}
    (h : (tok, v) ∈ plan) : decodePackPlan plan = none := by
  induction h with
  | head es => rw [decodePackPlan, decodeToken_of_ge htok]
  | tail e _ ih => cases ht : decodeToken e.1 <;> simp only [decodePackPlan, ht, ih]

theorem planOrIllegal_eq_ok {α : Type} {cmd : Byte} {mk : α → Instr} {o : Option α} {i : Instr} :
    planOrIllegal cmd mk o = .ok i ↔ ∃ plan, o = some plan ∧ mk plan = i := by
  cases o <;> simp [planOrIllegal]

/-- Every operation has a record that gives a command: its record of zeros (log 8). -/
theorem decodeRecord_zeroRecord (cmd : Byte) (op : Op) : ∃ i, decodeRecord cmd op (zeroRecord (some op)) = .ok i := by
  cases op <;> exact ⟨_, rfl⟩

/-! ## Encoding -/

theorem encode_enc (dt : Dtype) (len : Option Nat) (v : Int) :
    encode (Instr.enc dt len v) = ⟨(Op.enc dt).word, .cEnc len v⟩ := by
  rcases dt with ⟨_ | _, _ | _ | _ | _⟩ <;> rfl

theorem encode_dec (dt : Dtype) (F : Bits) : encode (Instr.dec dt F) = ⟨(Op.dec dt).word, .cDec F⟩ := by
  rcases dt with ⟨_ | _, _ | _ | _ | _⟩ <;> rfl

theorem encode_read (dt : Dtype) (len : Option Nat) : encode (Instr.read dt len) = ⟨(Op.read dt).word, .sTok len⟩ := by
  rcases dt with ⟨_ | _, _ | _ | _ | _⟩ <;> rfl

theorem encode_peek (dt : Dtype) (len : Option Nat) : encode (Instr.peek dt len) = ⟨(Op.peek dt).word, .sTok len⟩ := by
  rcases dt with ⟨_ | _, _ | _ | _ | _⟩ <;> rfl

/-- Settles O8: by the shapes of a command. The word gives the operation back, and the record of that operation its operands. -/
theorem decodeOfEncodeIsTheCommand : Obligations.DecodeOfEncodeIsTheCommand := by
  intro i
  rcases Machine.instr_shapes i with
    ⟨dt, len, v, rfl⟩ | ⟨dt, F, rfl⟩ | ⟨dt, len, rfl⟩ | ⟨dt, len, rfl⟩ | ⟨plan, rfl⟩ | ⟨plan, rfl⟩ | ⟨plan, rfl⟩ |
    ⟨plan, rfl⟩ | ⟨p, rfl⟩ | ⟨o, rfl⟩ | ⟨q, rfl⟩ | rfl
  · rw [encode_enc, decode_word, decodeRecord]
  · rw [encode_dec, decode_word, decodeRecord]
  · rw [encode_read, decode_word, decodeRecord]
  · rw [encode_peek, decode_word, decodeRecord]
  · exact (decode_word .readlist _).trans (planOrIllegal_eq_ok.mpr ⟨plan, decodePlan_map_encodeToken plan, rfl⟩)
  · exact (decode_word .peeklist _).trans (planOrIllegal_eq_ok.mpr ⟨plan, decodePlan_map_encodeToken plan, rfl⟩)
  · exact (decode_word .unpack _).trans (planOrIllegal_eq_ok.mpr ⟨plan, decodePlan_map_encodeToken plan, rfl⟩)
  · exact (decode_word .pack _).trans (planOrIllegal_eq_ok.mpr ⟨plan, decodePackPlan_map_encodeToken plan, rfl⟩)
  · exact decode_word .setpos _
  · cases o <;> exact decode_word .setorigin _
  · exact decode_word .bind _
  · exact decode_word .getpos _

/-- The command that a record gives to an operation is encoded as the operation's word and that record. -/
theorem encode_of_decodeRecord {cmd : Byte} {op : Op} {r : Record} {i : Instr} (h : decodeRecord cmd op r = .ok i) :
    encode i = ⟨op.word, r⟩ := by
  unfold decodeRecord at h
  split at h
  case h_1 => obtain rfl := Except.ok.inj h; exact encode_enc ..
  case h_2 => obtain rfl := Except.ok.inj h; exact encode_dec ..
  case h_3 => obtain rfl := Except.ok.inj h; exact encode_read ..
  case h_4 => obtain rfl := Except.ok.inj h; exact encode_peek ..
  case h_5 | h_6 | h_7 =>
    obtain ⟨plan, hplan, rfl⟩ := planOrIllegal_eq_ok.mp h
    rw [← map_encodeToken_of_decodePlan hplan]; rfl
  case h_8 =>
    obtain ⟨plan, hplan, rfl⟩ := planOrIllegal_eq_ok.mp h
    rw [← map_encodeToken_of_decodePackPlan hplan]; rfl
  case h_10 o => obtain rfl := Except.ok.inj h; cases o <;> rfl
  case h_9 | h_11 | h_12 => obtain rfl := Except.ok.inj h; rfl
  case h_13 => exact absurd h (by simp)

/-- Settles O9: its word is the word of the operation that it selects, its record the record of the command. -/
theorem decodedTransactionIsTheEncoding : Obligations.DecodedTransactionIsTheEncoding := by
  rintro ⟨cmd, r⟩ i h
  obtain ⟨op, rfl, hrecord⟩ := decode_eq_ok h
  exact encode_of_decodeRecord hrecord

/-- Settles O7: a word is read as an operation exactly where it is not reserved, and its command is encoded with that word (O9). -/
theorem everyWordIsOneCommandOrIllegal : Obligations.EveryWordIsOneCommandOrIllegal := by
  intro cmd
  refine ⟨fun hlegal => ?_, fun hreserved r => decode_of_reserved hreserved, fun r i h => ?_⟩
  · obtain ⟨op, hop⟩ := Option.ne_none_iff_exists'.mp (mt (decodeOp_eq_none_iff cmd).mp hlegal)
    obtain rfl := word_of_decodeOp hop
    exact ⟨zeroRecord (some op), by simpa only [decode_word] using decodeRecord_zeroRecord op.word op⟩
  · exact congrArg Transaction.cmd (decodedTransactionIsTheEncoding ⟨cmd, r⟩ i h)

/-- Settles O10: each transaction is the encoding of its command (O8). -/
theorem wordsOfEveryFamilyDecode : Obligations.WordsOfEveryFamilyDecode :=
  ⟨decodeOfEncodeIsTheCommand (.encIntle (some 16) (-2)), decodeOfEncodeIsTheCommand (.decUintne [true]),
    decodeOfEncodeIsTheCommand (.readIntbe (some 8)), decodeOfEncodeIsTheCommand (.peekUintle none),
    decodeOfEncodeIsTheCommand (.readlist [⟨⟨.signed, .le⟩, some 16⟩]),
    decodeOfEncodeIsTheCommand (.pack [(⟨⟨.unsigned, .ne⟩, some 8⟩, 7)]),
    decodeOfEncodeIsTheCommand (.setorigin .lsb0), decodeOfEncodeIsTheCommand .getpos⟩

end Sys2Proof

namespace Sys2Proof.Machine

/-! ## Illegal commands (R65, R67) -/

/-- A transaction that the decoder finds illegal is answered with that error, and no state changes. -/
theorem step_of_illegal {s : State} {t : Transaction} {ts : List Transaction} {cmd : Byte} (hport : s.port = t :: ts)
    (h : decode t = .error (.illegalCommand cmd)) :
    step s = .next { s with port := ts, reply := some (.err (.illegalCommand cmd) none) } := by
  simp only [step, State.takeTransaction_cons hport, h, rejectTransaction, State.raiseError]

/-- Settles O5: the word alone makes the transaction illegal. -/
theorem reservedWordsRaiseIllegalCommand : Obligations.ReservedWordsRaiseIllegalCommand :=
  fun _ _ _ hport hreserved => step_of_illegal hport (decode_of_reserved hreserved)

/-- Settles O6: the token makes the plan illegal, the plan the command. -/
theorem illegalTokenMakesTheCommandIllegal : Obligations.IllegalTokenMakesTheCommandIllegal := by
  intro s cmd ts tok htok
  refine ⟨fun plan hmem hcmd hport => step_of_illegal hport ?_, fun plan v hmem hcmd hport => step_of_illegal hport ?_⟩
  · have hplan := decodePlan_eq_none htok hmem
    rcases hcmd with rfl | rfl | rfl
    · exact (decode_word .readlist _).trans (by rw [decodeRecord, hplan]; rfl)
    · exact (decode_word .peeklist _).trans (by rw [decodeRecord, hplan]; rfl)
    · exact (decode_word .unpack _).trans (by rw [decodeRecord, hplan]; rfl)
  · subst hcmd
    exact (decode_word .pack _).trans (by rw [decodeRecord, decodePackPlan_eq_none htok hmem]; rfl)

/-! ## Lists of one entry (R75) -/

/-- A plan of one token passes the plan-level checks; a stretchy token takes what remains (R140). -/
theorem readPlan_singleton {s : State} {p : Nat} (hp : p ≤ s.seq.length) (t : Token) :
    readPlan s [t] p = readResolved s [⟨t.dt, some (t.len.getD (s.seq.length - p))⟩] p := by
  obtain ⟨dt, len⟩ := t
  cases len with
  | some n => rfl
  | none =>
    have hrest : ((s.seq.length : Int) - p - planTotal [⟨dt, none⟩]) = (s.seq.length - p : Nat) := by
      simp [planTotal]; omega
    simp only [readPlan, stretchyIndices, hrest, Int.toNat_natCast]
    rw [if_neg (by omega)]
    rfl

/-- A token that can be read is read as a plan of one entry (R120, R140): its length is within the limit, since DecCore accepts
a field of that length. -/
theorem readPlan_singleton_ok {s : State} {t : Token} {p : Nat} {r : Int × Nat} (h : readCore s t.dt t.len p = .ok r) :
    readPlan s [t] p = .ok ([r.1], p + r.2) := by
  obtain ⟨-, hle, hlen, hdec⟩ := readCore_eq_ok.mp h
  have hwithin : s.params.within r.2 = true := by
    simpa only [length_memRead hle] using (decCore_eq_ok.mp hdec).1
  have hread : readCore s t.dt (some r.2) p = .ok r := by rw [← h, hlen]; rfl
  rw [readPlan_singleton (by omega), ← hlen]
  simp [readResolved, planTotal, hwithin, readEntries, hread]

/-- A field that can be built is the field of the plan of that one entry (R80, R144). -/
theorem packCore_singleton_ok {prm : Params} {t : Token} {v : Int} {F : Bits} (h : encCore prm t.dt t.len v = .ok F) :
    packCore prm [(t, v)] = .ok F := by
  obtain ⟨n, hn, hwithin, -⟩ := encCore_eq_ok.mp h
  refine packCore_eq_ok.mpr ⟨by simp [packEntries, h], ?_⟩
  rwa [length_of_encCore (hn ▸ h)]

/-- Settles O32: the plan of one entry runs the entry's own pipeline. -/
theorem oneEntryListsAreSingleCommands : Obligations.OneEntryListsAreSingleCommands := by
  intro s u t
  refine ⟨fun v h hreply => ?_, fun v F h hreply => ?_⟩
  · rw [exec_read, readCommand] at h
    rcases gated_conclude_eq_next h with ⟨rfl, -⟩ | ⟨hfault, r, hr, rfl⟩ | ⟨-, e, j, -, rfl⟩
    · simp at hreply
    · obtain rfl : r.1 = v := by simpa using hreply
      rw [exec, execReadlist, hazardGate_clear hfault, readPlan_singleton_ok hr]
      rfl
    · simp at hreply
  · rw [exec_enc, encCommand] at h
    rcases conclude_eq_next.mp h with ⟨G, hG, rfl⟩ | ⟨e, j, -, rfl⟩
    · rw [exec, execPack, packCore_singleton_ok hG]
      rfl
    · simp at hreply

/-! ## The spelling of tokens (R73) -/

/-- The spelling of a token's length: absent, or its digits behind a colon or none. -/
def spellLength (colon : Bool) : Option Nat → Text
  | none   => []
  | some n => (if colon then [':'] else []) ++ spellNat n

/-- The spelling of a token's value: absent, or behind an equals sign. -/
def spellValue : Option Int → Text
  | none   => []
  | some x => '=' :: spellInt x

theorem spellToken_eq (colon : Bool) (t : Token) (v : Option Int) :
    spellToken colon t v = dtypeName t.dt ++ (spellLength colon t.len ++ spellValue v) :=
  List.append_assoc ..

/-- A spelled number begins with a digit. -/
theorem spellNat_eq_cons (n : Nat) : ∃ d cs, d < 10 ∧ spellNat n = Char.ofNat (48 + d) :: cs := by
  obtain ⟨c, cs, hcs⟩ := List.exists_cons_of_ne_nil (spellDigits_ne_nil (n + 1) n (by omega))
  obtain ⟨d, hd, rfl⟩ := mem_spellDigits (n + 1) n c (by simp [hcs])
  exact ⟨d, cs, hd, hcs⟩

theorem parseInt_spellInt (x : Int) : parseInt (spellInt x) = some x := by
  have hread : readNat (spellNat x.natAbs) = some (x.natAbs, []) := by
    simpa using readNat_spellNat x.natAbs [] (by simp [NoDigit])
  by_cases hneg : x < 0
  · simp [spellInt, hneg, parseInt, readInt, hread, abs_of_neg hneg]
  · obtain ⟨d, cs, hd, hcs⟩ := spellNat_eq_cons x.natAbs
    have hminus : Char.ofNat (48 + d) ≠ '-' := (digit_ofNat d hd).2.2.2.2
    rw [hcs] at hread
    simp [spellInt, hneg, parseInt, hcs, readInt, hminus, hread, abs_of_nonneg (not_lt.mp hneg)]

theorem parseValue_spellValue (v : Option Int) : parseValue (spellValue v) = some v := by
  cases v with
  | none => rfl
  | some x => simp [spellValue, parseValue, parseInt_spellInt]

theorem noDigit_spellValue (v : Option Int) : NoDigit (spellValue v) := by
  cases v with
  | none => simp [spellValue, NoDigit]
  | some x => rintro c cs ⟨⟩; rfl

theorem parseLenValue_spell (colon : Bool) (len : Option Nat) (v : Option Int) :
    parseLenValue (spellLength colon len ++ spellValue v) = some (len, v) := by
  cases len with
  | none =>
    cases v with
    | none => rfl
    | some x =>
      have hvalue : parseValue ('=' :: spellInt x) = some (some x) := parseValue_spellValue (some x)
      simp [spellLength, spellValue, parseLenValue, readNat, hvalue]
  | some n =>
    have hread := readNat_spellNat n (spellValue v) (noDigit_spellValue v)
    cases colon with
    | true => simp [spellLength, parseLenValue, hread, parseValue_spellValue]
    | false =>
      obtain ⟨d, cs, hd, hcs⟩ := spellNat_eq_cons n
      have hcolon : Char.ofNat (48 + d) ≠ ':' := (digit_ofNat d hd).2.2.2.1
      rw [hcs, List.cons_append] at hread
      simp [spellLength, hcs, parseLenValue, hcolon, hread, parseValue_spellValue]

theorem dtypeOfName_dtypeName (dt : Dtype) : dtypeOfName (dtypeName dt) = some dt := by
  rcases dt with ⟨_ | _, _ | _ | _ | _⟩ <;> rfl

theorem isLower_of_mem_dtypeName (dt : Dtype) : ∀ c ∈ dtypeName dt, c.isLower = true := by
  rcases dt with ⟨_ | _, _ | _ | _ | _⟩ <;> exact List.all_eq_true.mp rfl

/-- Behind the name of a token stands no lower-case letter, so the name ends there. -/
theorem takeWhile_isLower_spell (colon : Bool) (len : Option Nat) (v : Option Int) :
    (spellLength colon len ++ spellValue v).takeWhile Char.isLower = [] := by
  cases len with
  | none => cases v <;> rfl
  | some n =>
    cases colon with
    | true => rfl
    | false =>
      obtain ⟨d, cs, hd, hcs⟩ := spellNat_eq_cons n
      simp [spellLength, hcs, (digit_ofNat d hd).2.2.1]

/-- Settles O54: the lower-case letters are the name, and what stands behind them the length and the value. -/
theorem spelledTokensAreReadBack : Obligations.SpelledTokensAreReadBack := by
  intro colon t v
  have hname := isLower_of_mem_dtypeName t.dt
  have hend := takeWhile_isLower_spell colon t.len v
  have hrest : (spellLength colon t.len ++ spellValue v).dropWhile Char.isLower =
      spellLength colon t.len ++ spellValue v := by
    simpa only [hend, List.nil_append] using
      List.takeWhile_append_dropWhile (p := Char.isLower) (l := spellLength colon t.len ++ spellValue v)
  rw [parseToken, spellToken_eq, List.takeWhile_append_of_pos hname, List.dropWhile_append_of_pos hname, hend, hrest,
    List.append_nil, dtypeOfName_dtypeName, parseLenValue_spell]

/-- Settles O55: the transcriber runs on each line. -/
theorem pseudoCommandsExpand : Obligations.PseudoCommandsExpand :=
  ⟨by decide, by decide, by decide, by decide, by decide⟩

end Sys2Proof.Machine
end

section
/-! The statements of 40_int_encode (R80 to R94): the stages of ENC, ENC and DEC as inverses, the sign bit, UNPACK of PACK, and what
the commands that write no state element leave alone. -/

namespace Sys2Proof.Machine

/-! ## The checks of EncCore in the words of the statements (R50, R81, R82) -/

theorem misaligned_eq_false_iff {dt : Dtype} {n : Nat} : misaligned dt.bo n = false ↔ Spec.WholeBytes dt n := by
  simp [misaligned]

theorem misaligned_eq_true_iff {dt : Dtype} {n : Nat} : misaligned dt.bo n = true ↔ ¬ Spec.WholeBytes dt n := by
  rw [← misaligned_eq_false_iff, Bool.not_eq_false]

theorem inRange_eq_true_iff {sg : Sign} {n : Nat} {v : Int} : inRange sg n v = true ↔ Spec.InRange sg n v := by
  cases sg <;> simp [inRange, Spec.InRange]

theorem inRange_eq_false_iff {sg : Sign} {n : Nat} {v : Int} : inRange sg n v = false ↔ ¬ Spec.InRange sg n v := by
  rw [← inRange_eq_true_iff, Bool.not_eq_true]

/-! ## The bits of a canonical field (R48, R83, R84) -/

/-- The byte-order stage reverses the bytes in little-endian order only. -/
theorem canon_eq_ite (prm : Params) (bo : ByteOrder) (F : Bits) :
    canon prm bo F = if Spec.littleEndian prm bo then byterev F else F := by
  cases bo with
  | bit | be | le => rfl
  | ne => cases h : prm.hostOrd <;> simp [canon, resolve, Spec.littleEndian, h]

/-- No bit-wise field is in little-endian order, so one in that order has whole bytes. -/
theorem wholeBytes_of_littleEndian {prm : Params} {dt : Dtype} {n : Nat} (hn : Spec.WholeBytes dt n)
    (hle : Spec.littleEndian prm dt.bo = true) : n % 8 = 0 := by
  refine hn fun hbit => ?_
  simp [Spec.littleEndian, hbit] at hle

theorem canon_canon {prm : Params} {dt : Dtype} {F : Bits} (hF : Spec.WholeBytes dt F.length) :
    canon prm dt.bo (canon prm dt.bo F) = F := by
  simp only [canon_eq_ite]
  split_ifs with hle
  · have hbytes := wholeBytes_of_littleEndian hF hle
    exact byterev_byterev (m := F.length / 8) (by omega)
  · rfl

/-- Each stored bit of a canonical field is the bit of its weight. -/
theorem getElem?_canon_msbfirst {prm : Params} {dt : Dtype} {n i : Nat} (u : Nat) (hn : Spec.WholeBytes dt n) (hi : i < n) :
    (canon prm dt.bo (msbfirst n u))[i]? = some (u.testBit (Spec.weight (Spec.littleEndian prm dt.bo) n i)) := by
  rw [canon_eq_ite, Spec.weight]
  split_ifs with hle
  · have hbytes := wholeBytes_of_littleEndian hn hle
    have hlen : (msbfirst n u).length = 8 * (n / 8) := by rw [length_msbfirst]; omega
    have hrev := getElem?_byterev hlen (j := i / 8) (t := i % 8) (by omega) (by omega)
    rw [Nat.div_add_mod, getElem?_msbfirst n u _ (by omega)] at hrev
    rw [hrev]
    congr 2; omega
  · exact getElem?_msbfirst n u i hi

/-- The field that EncCore builds is the field of the value (R83, R84). -/
theorem isField_canon_msbfirst (prm : Params) {dt : Dtype} {n : Nat} (v : Int) (hn : Spec.WholeBytes dt n) :
    Spec.IsField prm dt n v (canon prm dt.bo (msbfirst n (v % 2 ^ n).toNat)) := by
  refine ⟨?_, fun i hi => getElem?_canon_msbfirst _ hn hi⟩
  rw [length_canon _ _ _ (by rwa [length_msbfirst, misaligned_eq_false_iff]), length_msbfirst]

/-! ## The stages of EncCore (R80) -/

section
variable {prm : Params} {dt : Dtype} {n : Nat} {v : Int}

theorem encCore_zeroLength (h0 : n = 0) : encCore prm dt (some n) v = .raise (.creation .zeroLength) none := by
  simp [encCore, h0]

theorem encCore_misaligned (hw : prm.within n = true) (h0 : n ≠ 0) (hn : ¬ Spec.WholeBytes dt n) :
    encCore prm dt (some n) v = .raise (.byteAlign n) none := by
  simp [encCore, hw, h0, misaligned_eq_true_iff.mpr hn]

theorem encCore_outOfRange (hn : Spec.LengthOk prm dt n) (hv : ¬ Spec.InRange dt.sg n v) :
    encCore prm dt (some n) v = .raise (.creation .outOfRange) none := by
  obtain ⟨hpos, hbytes, hw⟩ := hn
  simp [encCore, hw, Nat.ne_of_gt hpos, misaligned_eq_false_iff.mpr hbytes, inRange_eq_false_iff.mpr hv]

/-- EncCore answers a field exactly for a length that the dtype takes and a value in range, and it is the value's field. -/
theorem encCore_some_eq_ok {F : Bits} :
    encCore prm dt (some n) v = .ok F ↔
      Spec.LengthOk prm dt n ∧ Spec.InRange dt.sg n v ∧ F = canon prm dt.bo (msbfirst n (v % 2 ^ n).toNat) := by
  simp only [encCore_eq_ok, Option.some.injEq, exists_eq_left', misaligned_eq_false_iff, inRange_eq_true_iff,
    Spec.LengthOk, Nat.one_le_iff_ne_zero]
  tauto

end

/-- Settles O11: each stage has its own equation of EncCore, and ENC ends as EncCore does. -/
theorem encRunsItsStagesInOrder : Obligations.EncRunsItsStagesInOrder := by
  intro s dt v
  have ends {len x} (hx : encCore s.params dt len v = x) :
      exec (Instr.enc dt len v) s = conclude s x fun F => s.respond (.field F) := by
    rw [exec_enc, encCommand, hx]
  refine ⟨ends rfl, fun n => ⟨fun hw => ?_, fun _ h0 => ?_, fun hw h0 hn => ?_, fun hn hv => ?_, fun hn hv => ?_⟩⟩
  · exact ends (encCore_eq_refuse.mpr ⟨n, rfl, hw⟩)
  · exact ends (encCore_zeroLength h0)
  · exact ends (encCore_misaligned hw h0 hn)
  · exact ends (encCore_outOfRange hn hv)
  · exact ⟨_, isField_canon_msbfirst s.params v hn.2.1, ends (encCore_some_eq_ok.mpr ⟨hn, hv, rfl⟩)⟩

/-! ## ENC and DEC are inverse (R93) -/

/-- The unsigned value of a field with its first bit apart. -/
theorem uval_cons (b : Bool) (F : Bits) : uval (b :: F) = b.toNat * 2 ^ F.length + uval F := rfl

/-- The signed value of a field is negative exactly where its first bit, the sign bit, is one (R102). -/
theorem fieldValue_signed_neg_iff (G : Bits) : fieldValue .signed G < 0 ↔ G.headD false = true := by
  have hlt : (uval G : Int) < 2 ^ G.length := by exact_mod_cast uval_lt G
  simp only [fieldValue]
  split_ifs with hsign
  · exact iff_of_true (by omega) hsign
  · exact iff_of_false (by omega) hsign

/-- The value of a field lies in the range of its signedness (R101, R102). -/
theorem inRange_fieldValue (sg : Sign) {G : Bits} (h : G ≠ []) : inRange sg G.length (fieldValue sg G) = true := by
  obtain ⟨b, F, rfl⟩ := List.exists_cons_of_ne_nil h
  have hlt : (uval F : Int) < 2 ^ F.length := by exact_mod_cast uval_lt F
  have hpow : (2 : Int) ^ (F.length + 1) = 2 * 2 ^ F.length := by ring
  cases sg <;> cases b <;> simp [inRange, fieldValue, uval_cons, hpow] <;> omega

/-- What EncCore builds DecCore reads back. -/
theorem decCore_of_encCore {prm : Params} {dt : Dtype} {len : Option Nat} {v : Int} {F : Bits}
    (h : encCore prm dt len v = .ok F) : decCore prm dt F = .ok v := by
  obtain ⟨n, rfl, hw, h0, hmis, hv, hF⟩ := encCore_eq_ok.mp h
  have hlen : F.length = n := length_of_encCore h
  rw [decCore_eq_ok, hlen, hF,
    canon_canon (by rwa [length_msbfirst, ← misaligned_eq_false_iff]), fieldValue_msbfirst dt.sg n v h0 hv]
  exact ⟨hw, h0, hmis, rfl⟩

/-- What DecCore reads EncCore builds again. -/
theorem encCore_of_decCore {prm : Params} {dt : Dtype} {F : Bits} {v : Int} (h : decCore prm dt F = .ok v) :
    encCore prm dt (some F.length) v = .ok F := by
  obtain ⟨hw, h0, hmis, rfl⟩ := decCore_eq_ok.mp h
  have hlen : (canon prm dt.bo F).length = F.length := length_canon prm dt.bo F hmis
  have hne : canon prm dt.bo F ≠ [] := by rwa [← List.length_pos_iff, hlen, Nat.pos_iff_ne_zero]
  refine encCore_eq_ok.mpr ⟨_, rfl, hw, h0, hmis, ?_, ?_⟩
  · rw [← hlen]; exact inRange_fieldValue dt.sg hne
  · rw [← hlen, msbfirst_fieldValue, canon_canon (misaligned_eq_false_iff.mp hmis)]

/-- A command answers a field exactly where its pipeline does. -/
theorem conclude_eq_field {s : State} {x : Staged Bits} {F : Bits} :
    conclude s x (fun G => s.respond (.field G)) = .next (s.respond (.field F)) ↔ x = .ok F := by
  cases x <;> simp [conclude, State.respond, State.raiseError]

theorem exec_enc_eq_field {dt : Dtype} {len : Option Nat} {v : Int} {s : State} {F : Bits} :
    exec (Instr.enc dt len v) s = .next (s.respond (.field F)) ↔ encCore s.params dt len v = .ok F := by
  rw [exec_enc, encCommand, conclude_eq_field]

/-- Settles O14: both commands end as their pipelines do, which are inverse. -/
theorem encodeAndDecodeAreInverse : Obligations.EncodeAndDecodeAreInverse :=
  fun _ _ =>
    ⟨fun _ _ _ h => exec_dec_eq_value.mpr (decCore_of_encCore (exec_enc_eq_field.mp h)),
      fun _ _ h => exec_enc_eq_field.mpr (encCore_of_decCore (exec_dec_eq_value.mp h))⟩

/-! ## The sign bit (R83, R91) -/

/-- The sign bit is the stored bit of the weight `2 ^ (n - 1)`, in either order. -/
theorem weight_signIndex {le : Bool} {n : Nat} (h0 : n ≠ 0) (hle : le = true → n % 8 = 0) :
    Spec.weight le n (Spec.signIndex le n) = n - 1 := by
  cases le with
  | false => simp [Spec.weight, Spec.signIndex]
  | true => have := hle rfl; simp only [Spec.weight, Spec.signIndex, if_true]; omega

theorem signIndex_lt (le : Bool) {n : Nat} (h0 : n ≠ 0) : Spec.signIndex le n < n := by
  unfold Spec.signIndex; split_ifs <;> omega

theorem headD_msbfirst {n : Nat} (u : Nat) (h0 : n ≠ 0) : (msbfirst n u).headD false = u.testBit (n - 1) := by
  obtain ⟨m, rfl⟩ := Nat.exists_eq_succ_of_ne_zero h0
  rfl

/-- In two's complement the bit of the weight `2 ^ (n - 1)` is one for the negative values. -/
theorem testBit_sign {n : Nat} {v : Int} (h0 : n ≠ 0) (hv : inRange .signed n v = true) :
    (v % 2 ^ n).toNat.testBit (n - 1) = decide (v < 0) := by
  have hsign := fieldValue_signed_neg_iff (msbfirst n (v % 2 ^ n).toNat)
  rw [fieldValue_msbfirst .signed n v h0 hv, headD_msbfirst _ h0] at hsign
  rw [Bool.eq_iff_iff, ← hsign, decide_eq_true_iff]

/-- Settles O15: the stored bit of the weight `2 ^ (n - 1)` is bit `n - 1` of the value modulo `2 ^ n`. -/
theorem signBitTellsNegativeValues : Obligations.SignBitTellsNegativeValues := by
  intro s t bo n v F h hreply
  obtain ⟨G, henc, hG⟩ := conclude_success (fun _ => rfl) hreply (exec_enc .. ▸ h)
  obtain rfl : F = G := by simpa using hG
  obtain ⟨⟨hpos, hbytes, -⟩, hv, rfl⟩ := encCore_some_eq_ok.mp henc
  have h0 : n ≠ 0 := Nat.ne_of_gt hpos
  rw [getElem?_canon_msbfirst (dt := ⟨.signed, bo⟩) _ hbytes (signIndex_lt _ h0),
    weight_signIndex h0 (wholeBytes_of_littleEndian hbytes), testBit_sign h0 (inRange_eq_true_iff.mpr hv)]

/-! ## UNPACK of PACK (R143, R144, R147) -/

/-- A plan that is packed is its first entry's field and the packed rest. -/
theorem packEntries_cons_eq_ok {prm : Params} {j : Nat} {t : Token} {v : Int} {ps : List (Token × Int)} {F : Bits} :
    packEntries prm j ((t, v) :: ps) = .ok F ↔
      ∃ G H, encCore prm t.dt t.len v = .ok G ∧ packEntries prm (j + 1) ps = .ok H ∧ F = G ++ H := by
  rw [packEntries]
  cases encCore prm t.dt t.len v with
  | raise | refuse => simp
  | ok G => cases packEntries prm (j + 1) ps <;> simp [eq_comm]

/-- Every token of a plan that is packed has a length (R80 stage E1). -/
theorem fixedPlan_of_packEntries {prm : Params} {plan : List (Token × Int)} {j : Nat} {F : Bits}
    (h : packEntries prm j plan = .ok F) : Spec.FixedPlan (plan.map Prod.fst) := by
  induction plan generalizing j F with
  | nil => simp [Spec.FixedPlan]
  | cons e ps ih =>
    obtain ⟨G, H, henc, hrest, -⟩ := packEntries_cons_eq_ok.mp h
    obtain ⟨n, hn, -⟩ := encCore_eq_ok.mp henc
    simpa [Spec.FixedPlan, hn] using ih hrest

/-- With `ORIGIN` = MSB0 a read of the field that stands behind `A` in `SEQ` gives that field (R44). -/
theorem memRead_of_append {s : State} {A F B : Bits} (ho : s.origin = .msb0) (hs : s.seq = A ++ (F ++ B)) :
    s.memRead A.length F.length = F := by
  simp [State.memRead, State.fieldStart_msb0 ho, hs]

/-- A field that EncCore built is read back where it stands in `SEQ` (R93, R120). -/
theorem readCore_of_encCore {s : State} {dt : Dtype} {len : Option Nat} {v : Int} {A F B : Bits} (ho : s.origin = .msb0)
    (hs : s.seq = A ++ (F ++ B)) (h : encCore s.params dt len v = .ok F) :
    readCore s dt len A.length = .ok (v, F.length) := by
  obtain ⟨n, rfl, -, h0, -⟩ := encCore_eq_ok.mp h
  have hlen : F.length = n := length_of_encCore h
  have hL : s.seq.length = A.length + (F.length + B.length) := by simp [hs]
  refine readCore_eq_ok.mpr ⟨by omega, by dsimp only; omega, hlen, ?_⟩
  rw [memRead_of_append ho hs]
  exact decCore_of_encCore h

/-- The entries that stand packed behind `A` in `SEQ` are read back one after the other. -/
theorem readEntries_of_packEntries {s : State} (ho : s.origin = .msb0) {plan : List (Token × Int)} {j : Nat} {A F : Bits}
    (hs : s.seq = A ++ F) (h : packEntries s.params j plan = .ok F) :
    readEntries s j (plan.map Prod.fst) A.length = .ok (plan.map Prod.snd, s.seq.length) := by
  induction plan generalizing j A F with
  | nil =>
    obtain rfl : F = [] := by simpa [packEntries, eq_comm] using h
    simp [readEntries, hs]
  | cons e ps ih =>
    obtain ⟨G, H, henc, hrest, rfl⟩ := packEntries_cons_eq_ok.mp h
    have hread := readCore_of_encCore ho hs henc
    have htail := ih (A := A ++ G) (by rw [hs, List.append_assoc]) hrest
    rw [List.length_append] at htail
    simp only [List.map_cons, readEntries, hread, htail]

/-- A plan whose packed field is the whole of `SEQ` is read back from the start: its total is the length that PACK checked. -/
theorem readPlan_of_packCore {s : State} (ho : s.origin = .msb0) {plan : List (Token × Int)}
    (h : packCore s.params plan = .ok s.seq) :
    readPlan s (plan.map Prod.fst) 0 = .ok (plan.map Prod.snd, s.seq.length) := by
  obtain ⟨hentries, hw⟩ := packCore_eq_ok.mp h
  rw [length_packEntries hentries, packTotal] at hw
  rw [readPlan_of_fixed (fixedPlan_of_packEntries hentries), readResolved, if_pos hw]
  exact readEntries_of_packEntries ho (A := []) rfl hentries

/-- UNPACK, with `FAULT` = 0, answers the values of the plan that `SEQ` is packed from. -/
theorem exec_unpack_of_packCore {s : State} (hfault : s.fault = false) (ho : s.origin = .msb0) {plan : List (Token × Int)}
    (h : packCore s.params plan = .ok s.seq) :
    exec (.unpack (plan.map Prod.fst)) s = .next (s.respond (.ints (plan.map Prod.snd))) := by
  rw [exec, execUnpack, hazardGate_clear hfault, readPlan_of_packCore ho h, conclude]

/-- Settles O35: BIND checks the length that PACK has checked, and UNPACK reads the packed plan back from position 0. -/
theorem unpackOfPackGivesTheValuesBack : Obligations.UnpackOfPackGivesTheValuesBack := by
  intro s plan F h hfault ho
  have hpack : packCore s.params plan = .ok F := conclude_eq_field.mp h
  exact ⟨execBind_eq_next.mpr ⟨(packCore_eq_ok.mp hpack).2, rfl⟩,
    exec_unpack_of_packCore (s := { s with seq := F, pos := 0 }) hfault ho hpack⟩

/-! ## What the reading commands leave alone (R27, R40, R153) -/

section
variable {α : Type} {s t : State} {x : Staged α} {k : α → State} {P : State → Prop}

/-- What an error and every value of the pipeline leave true is true after the command. -/
theorem conclude_frame (herr : ∀ e j, P (s.raiseError e j)) (hok : ∀ a, x = .ok a → P (k a))
    (h : conclude s x k = .next t) : P t := by
  rcases conclude_eq_next.mp h with ⟨a, ha, rfl⟩ | ⟨e, j, -, rfl⟩
  · exact hok a ha
  · exact herr e j

/-- The same behind the hazard gate, which raises an error or lets the command run (R121). -/
theorem gated_conclude_frame (herr : ∀ e j, P (s.raiseError e j)) (hok : ∀ a, x = .ok a → P (k a))
    (h : hazardGate s (conclude s x k) = .next t) : P t := by
  rcases hazardGate_eq_next.mp h with ⟨-, rfl⟩ | ⟨-, hc⟩
  · exact herr _ _
  · exact conclude_frame herr hok hc

end

/-- The state after a command that at most replies. -/
def OnlyReplied (s t : State) : Prop := t = { s with reply := t.reply }

/-- The state after a command that at most replies and moves the cursor on. -/
def OnlyAdvanced (s t : State) : Prop := t = { s with pos := t.pos, reply := t.reply } ∧ s.pos ≤ t.pos

theorem onlyReplied_respond (s : State) (r : Result) : OnlyReplied s (s.respond r) := rfl

theorem onlyReplied_raiseError (s : State) (e : Error) (j : Option Nat) : OnlyReplied s (s.raiseError e j) := rfl

theorem onlyAdvanced_raiseError (s : State) (e : Error) (j : Option Nat) : OnlyAdvanced s (s.raiseError e j) :=
  ⟨rfl, Nat.le_refl s.pos⟩

theorem onlyAdvanced_respond {s : State} {p : Nat} (hp : s.pos ≤ p) (r : Result) :
    OnlyAdvanced s ({ s with pos := p }.respond r) :=
  ⟨rfl, hp⟩

/-- A command of the ports alone changes nothing but the reply (R40). -/
theorem exec_portsOnly_onlyReplied {i : Instr} {s t : State} (hi : Spec.PortsOnly i) (h : exec i s = .next t) :
    OnlyReplied s t := by
  obtain ⟨x, hx⟩ := exec_portsOnly hi s.params
  exact conclude_frame (onlyReplied_raiseError s) (fun r _ => onlyReplied_respond s r) (hx s rfl ▸ h)

/-- A gated command that responds with its pipeline's value changes nothing but the reply (R131, R142, R143). -/
theorem gated_respond_onlyReplied {α : Type} {s t : State} {x : Staged α} {f : α → Result}
    (h : hazardGate s (conclude s x fun a => s.respond (f a)) = .next t) : OnlyReplied s t :=
  gated_conclude_frame (onlyReplied_raiseError s) (fun a _ => onlyReplied_respond s (f a)) h

/-- Settles O46: an error and a result change the reply alone, and a read that succeeds ends behind its start. -/
theorem readingCommandsLeaveTheStateAlone : Obligations.ReadingCommandsLeaveTheStateAlone := by
  intro i s t h
  refine ⟨?_, ?_⟩
  · rintro (hi | rfl | ⟨dt, len, rfl⟩ | ⟨plan, rfl⟩ | ⟨plan, rfl⟩)
    · exact exec_portsOnly_onlyReplied hi h
    · obtain rfl := Host.Outcome.next.inj h
      exact onlyReplied_respond s _
    · rw [exec_peek] at h
      exact gated_respond_onlyReplied h
    · exact gated_respond_onlyReplied h
    · exact gated_respond_onlyReplied h
  · rintro (⟨dt, len, rfl⟩ | ⟨plan, rfl⟩)
    · rw [exec_read] at h
      exact gated_conclude_frame (onlyAdvanced_raiseError s)
        (fun a _ => onlyAdvanced_respond (Nat.le_add_right s.pos a.2) _) h
    · exact gated_conclude_frame (onlyAdvanced_raiseError s)
        (fun a ha => onlyAdvanced_respond (readPlan_ok ha).2.1 _) h

end Sys2Proof.Machine
end

section
/-! The statements of 41_int_decode (R100 to R111): the stages of DEC and the range of a decoded value. -/

namespace Sys2Proof.Machine

/-! ## The value of a field as the sum of its weights (R101, R102)

A field of a dtype holds the bits of one number, each where its weight says, and both formulas of the value are about that
number. -/

/-- Every stored bit has a weight below `2 ^ n`; in little-endian order the field has whole bytes. -/
theorem weight_lt {le : Bool} {n i : Nat} (hle : le = true → n % 8 = 0) (hi : i < n) : Spec.weight le n i < n := by
  cases le with
  | false => simp only [Spec.weight, Bool.false_eq_true, if_false]; omega
  | true => have := hle rfl; simp only [Spec.weight, if_true]; omega

/-- The exponent of the weight is a reversal: of the whole field, or inside each byte. -/
theorem weight_weight {le : Bool} {n i : Nat} (hi : i < n) : Spec.weight le n (Spec.weight le n i) = i := by
  cases le with
  | false => simp only [Spec.weight, Bool.false_eq_true, if_false]; omega
  | true => simp only [Spec.weight, if_true]; omega

/-- The value of the low `n` bits of a number is the sum of the weights of those that are one. -/
theorem sum_testBit (n u : Nat) : (∑ k ∈ Finset.range n, if u.testBit k then 2 ^ k else 0) = uval (msbfirst n u) := by
  induction n with
  | zero => rfl
  | succ n ih =>
    rw [Finset.sum_range_succ, ih, msbfirst, uval_cons, length_msbfirst]
    cases u.testBit n <;> simp [Nat.add_comm]

/-- A field whose stored bits are the bits of `u` of their weights has the unsigned value `u`. -/
theorem unsignedValue_of_getElem? {le : Bool} {F : Bits} {u : Nat} (hle : le = true → F.length % 8 = 0)
    (hu : u < 2 ^ F.length) (hbits : ∀ i < F.length, F[i]? = some (u.testBit (Spec.weight le F.length i))) :
    Spec.unsignedValue le F = u := by
  have hmem : ∀ i ∈ Finset.range F.length, Spec.weight le F.length i ∈ Finset.range F.length :=
    fun i hi => Finset.mem_range.mpr (weight_lt hle (Finset.mem_range.mp hi))
  have hinv : ∀ i ∈ Finset.range F.length, Spec.weight le F.length (Spec.weight le F.length i) = i :=
    fun i hi => weight_weight (Finset.mem_range.mp hi)
  calc Spec.unsignedValue le F
      = ∑ i ∈ Finset.range F.length, if F[i]? = some true then 2 ^ Spec.weight le F.length i else 0 := rfl
    _ = ∑ k ∈ Finset.range F.length, if u.testBit k then 2 ^ k else 0 := by
      refine Finset.sum_nbij' _ _ hmem hmem hinv hinv fun i hi => ?_
      simp [hbits i (Finset.mem_range.mp hi)]
    _ = u := by rw [sum_testBit, uval_msbfirst, Nat.mod_eq_of_lt hu]

section
variable {prm : Params} {dt : Dtype} {F : Bits}

theorem length_canon_of_wholeBytes (hF : Spec.WholeBytes dt F.length) : (canon prm dt.bo F).length = F.length :=
  length_canon prm dt.bo F (misaligned_eq_false_iff.mpr hF)

/-- Each stored bit of a field is the bit of its weight of the canonical field's value. -/
theorem getElem?_eq_testBit_canon {i : Nat} (hF : Spec.WholeBytes dt F.length) (hi : i < F.length) :
    F[i]? = some ((uval (canon prm dt.bo F)).testBit (Spec.weight (Spec.littleEndian prm dt.bo) F.length i)) := by
  have hbuilt : canon prm dt.bo (msbfirst F.length (uval (canon prm dt.bo F))) = F := by
    rw [← length_canon_of_wholeBytes (prm := prm) hF, msbfirst_uval, canon_canon hF]
  have hbit := getElem?_canon_msbfirst (prm := prm) (uval (canon prm dt.bo F)) hF hi
  rwa [hbuilt] at hbit

theorem unsignedValue_eq_uval_canon (hF : Spec.WholeBytes dt F.length) :
    Spec.unsignedValue (Spec.littleEndian prm dt.bo) F = uval (canon prm dt.bo F) :=
  unsignedValue_of_getElem? (wholeBytes_of_littleEndian hF)
    (length_canon_of_wholeBytes (prm := prm) hF ▸ uval_lt _) fun _ hi => getElem?_eq_testBit_canon hF hi

/-- The first bit of a field is the bit of the highest weight of its value. -/
theorem headD_eq_testBit_uval {G : Bits} (h0 : G.length ≠ 0) : G.headD false = (uval G).testBit (G.length - 1) := by
  rw [← headD_msbfirst _ h0, msbfirst_uval]

/-- The stored bit at the sign's place is the first bit of the canonical field (R102, R110). -/
theorem getElem?_signIndex (hF : Spec.WholeBytes dt F.length) (h0 : F.length ≠ 0) :
    F[Spec.signIndex (Spec.littleEndian prm dt.bo) F.length]? = some ((canon prm dt.bo F).headD false) := by
  have hlen := length_canon_of_wholeBytes (prm := prm) hF
  rw [getElem?_eq_testBit_canon hF (signIndex_lt _ h0), weight_signIndex h0 (wholeBytes_of_littleEndian hF),
    headD_eq_testBit_uval (by rwa [hlen]), hlen]

/-- The value that DecCore answers is the sum of the weights of the one bits, less `2 ^ n` for a sign bit (R101, R102). -/
theorem value_eq_fieldValue_canon (hF : Spec.WholeBytes dt F.length) (h0 : F.length ≠ 0) :
    Spec.value prm dt F = fieldValue dt.sg (canon prm dt.bo F) := by
  simp only [Spec.value, getElem?_signIndex hF h0, unsignedValue_eq_uval_canon hF, Option.some.injEq]
  cases dt.sg with
  | unsigned => simp [fieldValue]
  | signed => simp [fieldValue, length_canon_of_wholeBytes hF]

/-! ## The stages of DecCore (R100) -/

theorem decCore_zeroLength (h0 : F.length = 0) : decCore prm dt F = .raise .interpretZeroLength none := by
  simp [decCore, h0]

theorem decCore_misaligned (hw : prm.within F.length = true) (h0 : F.length ≠ 0) (hF : ¬ Spec.WholeBytes dt F.length) :
    decCore prm dt F = .raise (.byteAlign F.length) none := by
  simp [decCore, hw, h0, misaligned_eq_true_iff.mpr hF]

theorem decCore_value (hF : Spec.LengthOk prm dt F.length) : decCore prm dt F = .ok (Spec.value prm dt F) := by
  obtain ⟨hpos, hbytes, hw⟩ := hF
  have h0 : F.length ≠ 0 := Nat.ne_of_gt hpos
  exact decCore_eq_ok.mpr ⟨hw, h0, misaligned_eq_false_iff.mpr hbytes, value_eq_fieldValue_canon hbytes h0⟩

end

/-- Settles O12: each stage has its own equation of DecCore, and DEC ends as DecCore does. -/
theorem decRunsItsStagesInOrder : Obligations.DecRunsItsStagesInOrder := by
  intro s dt F
  have ends {x} (hx : decCore s.params dt F = x) :
      exec (Instr.dec dt F) s = conclude s x fun v => s.respond (.int v) := by
    rw [exec_dec, decCommand, hx]
  refine ⟨fun hw => ?_, fun _ h0 => ?_, fun hw h0 hF => ?_, fun hF => ?_⟩
  · exact ends (decCore_eq_refuse.mpr hw)
  · exact ends (decCore_zeroLength h0)
  · exact ends (decCore_misaligned hw h0 hF)
  · exact ends (decCore_value hF)

/-! ## The range of a decoded value (R101, R102) -/

/-- A value that DecCore answers can be encoded in a field of that length, since EncCore builds the field again; so it is in
range. -/
theorem inRange_of_decCore {prm : Params} {dt : Dtype} {F : Bits} {v : Int} (h : decCore prm dt F = .ok v) :
    Spec.InRange dt.sg F.length v :=
  (encCore_some_eq_ok.mp (encCore_of_decCore h)).2.1

/-- Settles O13: the integer on the result port is DecCore's value. -/
theorem decodedValueIsInRange : Obligations.DecodedValueIsInRange := by
  intro s t dt F v h hreply
  obtain ⟨w, hdec, hw⟩ := conclude_success (fun _ => rfl) hreply (exec_dec .. ▸ h)
  obtain rfl : v = w := by simpa using hw
  exact inRange_of_decCore hdec

end Sys2Proof.Machine
end

section
/-! The statements of 42_plan_stream (R120 to R149): the hazard gate, READ and PEEK, the list commands, PACK, and the commands that set
the cursor, the origin and the sequence. -/

namespace Sys2Proof.Machine

/-! ## Control (R145 to R148) -/

/-- Settles O36: the two branches of SETPOS. -/
theorem setposSetsTheCursorInRange : Obligations.SetposSetsTheCursorInRange :=
  fun _ _ => ⟨fun hp => execSetpos_eq_next.mpr (.inl ⟨hp, rfl⟩),
    fun hp => execSetpos_eq_next.mpr (.inr ⟨by omega, rfl⟩)⟩

/-- Settles O37: the two branches of SETORIGIN. -/
theorem setoriginSwitchesAndFlagsTheHazard : Obligations.SetoriginSwitchesAndFlagsTheHazard :=
  fun _ _ => ⟨fun ho hp => execSetorigin_eq_next.mpr (.inl ⟨⟨ho, hp⟩, rfl⟩),
    fun h => execSetorigin_eq_next.mpr (.inr ⟨by tauto, rfl⟩)⟩

/-- Settles O38: the two branches of BIND. -/
theorem bindReplacesTheSequence : Obligations.BindReplacesTheSequence := by
  refine fun s seq => ⟨fun hw => execBind_eq_next.mpr ⟨hw, rfl⟩, fun hw => ?_⟩
  simp [exec, execBind, hw]

/-- Settles O39: GETPOS has one branch. -/
theorem getposReturnsTheCursor : Obligations.GetposReturnsTheCursor :=
  fun _ => rfl

/-! ## The hazard gate (R121) -/

/-- Every command that reads `SEQ` fails at the gate while `FAULT` is set. -/
theorem exec_readsSeq_of_fault {s : State} {i : Instr} (hi : Spec.ReadsSeq i) (hfault : s.fault = true) :
    exec i s = .next (s.raiseError (.originHazard .undefined) none) := by
  rcases hi with ⟨dt, len, rfl⟩ | ⟨dt, len, rfl⟩ | ⟨plan, rfl⟩ | ⟨plan, rfl⟩ | ⟨plan, rfl⟩
  · rw [exec_read]; exact hazardGate_set hfault
  · rw [exec_peek]; exact hazardGate_set hfault
  · exact hazardGate_set hfault
  · exact hazardGate_set hfault
  · exact hazardGate_set hfault

/-- A command that does not read `SEQ` is one of the ports alone or a control command. -/
theorem portsOnly_or_control_of_not_readsSeq {i : Instr} (hi : ¬ Spec.ReadsSeq i) :
    Spec.PortsOnly i ∨ (∃ p, i = .setpos p) ∨ (∃ o, i = .setorigin o) ∨ (∃ q, i = .bind q) ∨ i = .getpos := by
  rcases instr_shapes i with henc | hdec | hread | hpeek | hreadlist | hpeeklist | hunpack | hpack | hcontrol
  · exact .inl (.inl henc)
  · exact .inl (.inr (.inl hdec))
  · exact absurd (.inl hread) hi
  · exact absurd (.inr (.inl hpeek)) hi
  · exact absurd (.inr (.inr (.inl hreadlist))) hi
  · exact absurd (.inr (.inr (.inr (.inl hpeeklist)))) hi
  · exact absurd (.inr (.inr (.inr (.inr hunpack)))) hi
  · exact .inl (.inr (.inr hpack))
  · exact .inr hcontrol

/-- Setting `FAULT` before an ungated command that answers a state comes to the same as setting it after the command. -/
theorem exec_setFault_next {s t : State} {i : Instr} (hi : ¬ Spec.ReadsSeq i) (h : exec i s = .next t) :
    exec i s.setFault = .next t.setFault := by
  rcases portsOnly_or_control_of_not_readsSeq hi with hports | ⟨p, rfl⟩ | ⟨o, rfl⟩ | ⟨q, rfl⟩ | rfl
  · obtain ⟨x, hx⟩ := exec_portsOnly hports s.params
    rw [hx s rfl] at h
    rw [hx s.setFault rfl]
    rcases conclude_eq_next.mp h with ⟨a, rfl, rfl⟩ | ⟨e, j, rfl, rfl⟩ <;> rfl
  · rcases execSetpos_eq_next.mp h with ⟨hp, rfl⟩ | ⟨hp, rfl⟩
    · exact execSetpos_eq_next.mpr (.inl ⟨hp, rfl⟩)
    · exact execSetpos_eq_next.mpr (.inr ⟨hp, rfl⟩)
  · rcases execSetorigin_eq_next.mp h with ⟨ho, rfl⟩ | ⟨ho, rfl⟩
    · exact execSetorigin_eq_next.mpr (.inl ⟨ho, rfl⟩)
    · exact execSetorigin_eq_next.mpr (.inr ⟨ho, rfl⟩)
  · obtain ⟨hq, rfl⟩ := execBind_eq_next.mp h
    exact execBind_eq_next.mpr ⟨hq, rfl⟩
  · obtain rfl := Host.Outcome.next.inj h
    rfl

/-- An ungated command that is refused is refused with `FAULT` set. -/
theorem exec_setFault_refused {s : State} {i : Instr} {r : Refusal} (hi : ¬ Spec.ReadsSeq i) (h : exec i s = .refused r) :
    exec i s.setFault = .refused r := by
  rcases portsOnly_or_control_of_not_readsSeq hi with hports | ⟨p, rfl⟩ | ⟨o, rfl⟩ | ⟨q, rfl⟩ | rfl
  · obtain ⟨x, hx⟩ := exec_portsOnly hports s.params
    rw [hx s rfl] at h
    rw [hx s.setFault rfl]
    exact conclude_eq_refused.mpr (conclude_eq_refused.mp h)
  · simp only [exec, execSetpos] at h
    split_ifs at h
  · simp only [exec, execSetorigin] at h
    split_ifs at h
  · simp only [exec, execBind] at h ⊢
    split_ifs at h with hq
    rw [State.setFault_params, if_neg hq, h]
  · simp [exec, execGetpos] at h

/-- Settles O23: the gate comes first in the commands that read `SEQ`, and the others do not test `FAULT`. -/
theorem hazardGateStopsReadsOfSeqOnly : Obligations.HazardGateStopsReadsOfSeqOnly :=
  fun _ _ => ⟨exec_readsSeq_of_fault, fun hi => ⟨fun _ => exec_setFault_next hi, fun _ => exec_setFault_refused hi⟩⟩

/-! ## The stages of ReadCore (R120) -/

/-- The bits that a read inside `SEQ` sees, counted from the origin end (R44). -/
theorem memRead_eq_storedField {s : State} {p n : Nat} (hle : p + n ≤ s.seq.length) :
    s.memRead p n = Spec.storedField s p n := by
  have hstart : s.fieldStart p n = if s.origin = .msb0 then p else s.seq.length - p - n := by
    cases ho : s.origin <;> simp [State.fieldStart, ho]
  have hinside : s.fieldStart p n + n ≤ s.seq.length := by
    rw [hstart]; split_ifs <;> omega
  refine List.ext_getElem (by simp [length_memRead hle, Spec.storedField]) fun i hi _ => ?_
  rw [length_memRead hle] at hi
  have hbit : s.fieldStart p n + i < s.seq.length := by omega
  simp [Spec.storedField, State.memRead, ← hstart, hbit]

section
variable {s : State} {dt : Dtype} {len : Option Nat} {p n : Nat}

theorem readCore_endOfStream (hp : p = s.seq.length) : readCore s dt len p = .raise (.read .endOfStream) none := by
  simp [readCore, hp]

theorem readCore_overrun (hn : len.getD (s.seq.length - p) = n) (hp : p < s.seq.length) (hover : s.seq.length < p + n) :
    readCore s dt len p = .raise (.read .overrun) none := by
  simp [readCore, hn, hp.ne, hover]

/-- A field inside `SEQ` is decoded, and its length is what is consumed (R120 stage S3). -/
theorem readCore_inside (hn : len.getD (s.seq.length - p) = n) (hp : p < s.seq.length) (hle : p + n ≤ s.seq.length) :
    readCore s dt len p = (decCore s.params dt (s.memRead p n)).map fun v => (v, n) := by
  simp only [readCore, hn, if_neg hp.ne, if_neg hle.not_gt]
  cases decCore s.params dt (s.memRead p n) <;> rfl

theorem readCore_value (hn : len.getD (s.seq.length - p) = n) (hle : p + n ≤ s.seq.length)
    (hok : Spec.LengthOk s.params dt n) :
    readCore s dt len p = .ok (Spec.value s.params dt (Spec.storedField s p n), n) := by
  have hlen := length_memRead hle
  have hpos : 1 ≤ n := hok.1
  rw [readCore_inside hn (by omega) hle, decCore_value (by rwa [hlen]), memRead_eq_storedField hle, Staged.map]

end

/-- How a gated command that reads one field at the cursor ends, `k` being what it does with the value and the length. -/
theorem gated_readCore_stages (s : State) (dt : Dtype) (len : Option Nat) (k : Int × Nat → State) :
    let n := len.getD (s.seq.length - s.pos)
    let out := hazardGate s (conclude s (readCore s dt len s.pos) k)
    let fails (e : Error) := out = .next (s.raiseError e none)
    (s.fault = true → fails (.originHazard .undefined)) ∧
    (s.fault = false → s.pos ≤ s.seq.length →
      (s.pos = s.seq.length → fails (.read .endOfStream)) ∧
      (s.pos < s.seq.length → s.seq.length < s.pos + n → fails (.read .overrun)) ∧
      (s.pos < s.seq.length → s.pos + n ≤ s.seq.length → s.params.within n = false → out = .refused .lengthAboveMaxLen) ∧
      (s.pos < s.seq.length → s.pos + n ≤ s.seq.length → s.params.within n = true → n = 0 → fails .interpretZeroLength) ∧
      (s.pos < s.seq.length → s.pos + n ≤ s.seq.length → s.params.within n = true → n ≠ 0 → ¬ Spec.WholeBytes dt n →
        fails (.byteAlign n)) ∧
      (s.pos + n ≤ s.seq.length → Spec.LengthOk s.params dt n →
        out = .next (k (Spec.value s.params dt (Spec.storedField s s.pos n), n)))) := by
  intro n out fails
  refine ⟨hazardGate_set, fun hfault _ => ?_⟩
  have ends {x} (hx : readCore s dt len s.pos = x) : out = conclude s x k := by
    rw [← hx]; exact hazardGate_clear hfault
  have decodes {x} (hp : s.pos < s.seq.length) (hle : s.pos + n ≤ s.seq.length)
      (hx : decCore s.params dt (s.memRead s.pos n) = x) : out = conclude s (x.map fun v => (v, n)) k :=
    ends (by rw [readCore_inside rfl hp hle, hx])
  refine ⟨fun hp => ends (readCore_endOfStream hp), fun hp hover => ends (readCore_overrun rfl hp hover),
    fun hp hle hw => ?_, fun hp hle hw h0 => ?_, fun hp hle hw h0 hn => ?_, fun hle hok => ends (readCore_value rfl hle hok)⟩
  · exact decodes hp hle (decCore_eq_refuse.mpr (by rwa [length_memRead hle]))
  · exact decodes hp hle (decCore_zeroLength (by rwa [length_memRead hle]))
  · rw [← length_memRead hle] at hw h0 hn
    have hmis := decodes hp hle (decCore_misaligned hw h0 hn)
    rwa [length_memRead hle] at hmis

/-- Settles O24: READ goes on from the value by moving the cursor behind the field. -/
theorem readRunsItsStagesInOrder : Obligations.ReadRunsItsStagesInOrder := by
  intro s dt len
  simp only [exec_read]
  exact gated_readCore_stages s dt len _

/-- Settles O25: PEEK goes on from the value by replying alone. -/
theorem peekRunsItsStagesInOrder : Obligations.PeekRunsItsStagesInOrder := by
  intro s dt len
  simp only [exec_peek]
  exact gated_readCore_stages s dt len _

/-! ## How the list commands end (R141 to R143) -/

section
variable {s : State} {plan : List Token} {x : Staged (List Int × Nat)}

theorem exec_readlist_of_readPlan (hfault : s.fault = false) (h : readPlan s plan s.pos = x) :
    exec (.readlist plan) s = conclude s x fun r => { s with pos := r.2 }.respond (.ints r.1) := by
  rw [exec, execReadlist, hazardGate_clear hfault, h]

theorem exec_peeklist_of_readPlan (hfault : s.fault = false) (h : readPlan s plan s.pos = x) :
    exec (.peeklist plan) s = conclude s x fun r => s.respond (.ints r.1) := by
  rw [exec, execPeeklist, hazardGate_clear hfault, h]

theorem exec_unpack_of_readPlan (hfault : s.fault = false) (h : readPlan s plan 0 = x) :
    exec (.unpack plan) s = conclude s x fun r => s.respond (.ints r.1) := by
  rw [exec, execUnpack, hazardGate_clear hfault, h]

end

/-- What a gated command replies stands also in the reply of one that responds with the same values and goes on otherwise. -/
theorem gated_conclude_same_reply {α : Type} {s s' u : State} {x : Staged α} {k : α → State} {f : α → Result}
    (hfault : s'.fault = s.fault) (hk : ∀ a, (k a).reply = some (.ok (f a)))
    (h : hazardGate s' (conclude s' x k) = .next u) :
    hazardGate s (conclude s x fun a => s.respond (f a)) = .next { s with reply := u.reply } := by
  rcases gated_conclude_eq_next h with ⟨rfl, hset⟩ | ⟨hclear, a, rfl, rfl⟩ | ⟨hclear, e, j, rfl, rfl⟩
  · exact hazardGate_set (hfault ▸ hset)
  · rw [hazardGate_clear (hfault ▸ hclear), hk]; rfl
  · exact hazardGate_clear (hfault ▸ hclear)

/-- Settles O31: the three commands run the same plan read, which does not depend on `pos`. -/
theorem peeklistAndUnpackAnswerAsReadlist : Obligations.PeeklistAndUnpackAnswerAsReadlist := by
  intro s u plan r
  have hplan : readPlan { s with pos := 0 } plan 0 = readPlan s plan 0 :=
    readPlan_congr (s := s) (s' := { s with pos := 0 }) rfl rfl rfl plan 0
  refine ⟨fun h => gated_conclude_same_reply (s' := s) rfl (fun _ => rfl) h,
    fun h => gated_conclude_eq_refused.mpr (gated_conclude_eq_refused.mp h), fun h => ?_, fun h => ?_⟩
  · rw [exec, execReadlist, hplan] at h
    exact gated_conclude_same_reply (s' := { s with pos := 0 }) rfl (fun _ => rfl) h
  · rw [exec, execReadlist, hplan] at h
    obtain ⟨hfault, hrefuse⟩ := gated_conclude_eq_refused.mp h
    exact gated_conclude_eq_refused.mpr ⟨hfault, hrefuse⟩

/-! ## Stretchy entries (R140 stages P1 and P2) -/

theorem stretchyIndices_append (a c : List Token) (j : Nat) :
    stretchyIndices j (a ++ c) = stretchyIndices j a ++ stretchyIndices (j + a.length) c := by
  induction a generalizing j with
  | nil => rfl
  | cons t ts ih =>
    have hj : j + 1 + ts.length = j + (ts.length + 1) := by omega
    cases hlen : t.len <;> simp [stretchyIndices, hlen, ih, hj]

/-- A stretchy token behind fixed ones is the first with an index. -/
theorem stretchyIndices_fixed_append_stretchy {a : List Token} (ha : Spec.FixedPlan a) (dt : Dtype) (c : List Token) (j : Nat) :
    stretchyIndices j (a ++ ⟨dt, none⟩ :: c) = (j + a.length) :: stretchyIndices (j + a.length + 1) c := by
  rw [stretchyIndices_append, stretchyIndices_of_fixed ha, List.nil_append, stretchyIndices]

theorem readPlan_twoStretchy {a b : List Token} (ha : Spec.FixedPlan a) (hb : Spec.FixedPlan b) (c : List Token)
    (dt dt' : Dtype) (s : State) (p : Nat) :
    readPlan s (a ++ ⟨dt, none⟩ :: (b ++ ⟨dt', none⟩ :: c)) p =
      .raise (.creation .twoStretchy) (some (a.length + 1 + b.length)) := by
  simp only [readPlan, stretchyIndices_fixed_append_stretchy ha, stretchyIndices_fixed_append_stretchy hb, Nat.zero_add]

/-- Settles O29: the plan read fails at the second stretchy index from every position. -/
theorem secondStretchyEntryIsCreationError : Obligations.SecondStretchyEntryIsCreationError := by
  intro s a b c dt dt' hfault ha hb
  have hfails := readPlan_twoStretchy ha hb c dt dt' s
  exact ⟨exec_readlist_of_readPlan hfault (hfails _), exec_peeklist_of_readPlan hfault (hfails _),
    exec_unpack_of_readPlan hfault (hfails _)⟩

theorem planLength_cons (t : Token) (ts : List Token) : Spec.planLength (t :: ts) = t.len.getD 0 + Spec.planLength ts := by
  simp [Spec.planLength]

theorem planLength_append (a c : List Token) : Spec.planLength (a ++ c) = Spec.planLength a + Spec.planLength c := by
  simp [Spec.planLength]

/-- The fixed entries keep their lengths. -/
theorem resolveStretchy_of_fixed {plan : List Token} (hf : Spec.FixedPlan plan) (ns : Nat) :
    resolveStretchy ns plan = plan := by
  refine (List.map_congr_left fun t ht => ?_).trans (List.map_id plan)
  obtain ⟨n, hn⟩ := Option.ne_none_iff_exists'.mp (hf t ht)
  rw [id_eq, hn, Option.getD_some, ← hn]

section
variable {a c : List Token} {s : State} {p : Nat}

/-- A plan with one stretchy entry is read with the length that the fixed entries leave to it, or fails at its index. -/
theorem readPlan_oneStretchy (ha : Spec.FixedPlan a) (hc : Spec.FixedPlan c) (dt : Dtype) :
    readPlan s (a ++ ⟨dt, none⟩ :: c) p =
      if (s.seq.length : Int) - p - (Spec.planLength a + Spec.planLength c : Nat) < 0 then
        .raise (.read .overrun) (some a.length)
      else
        readResolved s (a ++ ⟨dt, some (s.seq.length - p - (Spec.planLength a + Spec.planLength c))⟩ :: c) p := by
  have htotal : planTotal (a ++ ⟨dt, none⟩ :: c) = Spec.planLength a + Spec.planLength c := by
    rw [planTotal_eq_planLength, planLength_append, planLength_cons, Option.getD_none, Nat.zero_add]
  have hindex : stretchyIndices 0 (a ++ ⟨dt, none⟩ :: c) = [a.length] := by
    rw [stretchyIndices_fixed_append_stretchy ha, stretchyIndices_of_fixed hc, Nat.zero_add]
  have hresolved (n : Nat) : resolveStretchy n (a ++ ⟨dt, none⟩ :: c) = a ++ ⟨dt, some n⟩ :: c := by
    calc resolveStretchy n (a ++ ⟨dt, none⟩ :: c)
        = resolveStretchy n a ++ ⟨dt, some n⟩ :: resolveStretchy n c := List.map_append
      _ = a ++ ⟨dt, some n⟩ :: c := by rw [resolveStretchy_of_fixed ha, resolveStretchy_of_fixed hc]
  have hrest : ((s.seq.length : Int) - p - (Spec.planLength a + Spec.planLength c : Nat)).toNat =
      s.seq.length - p - (Spec.planLength a + Spec.planLength c) := by omega
  simp only [readPlan, hindex, htotal, hresolved, hrest]

theorem fixedPlan_insert (ha : Spec.FixedPlan a) (hc : Spec.FixedPlan c) (dt : Dtype) (n : Nat) :
    Spec.FixedPlan (a ++ ⟨dt, some n⟩ :: c) := by
  intro t ht
  rcases List.mem_append.mp ht with hmem | hmem
  · exact ha t hmem
  · rcases List.mem_cons.mp hmem with rfl | hmem
    · exact Option.some_ne_none n
    · exact hc t hmem

theorem readPlan_stretchy (ha : Spec.FixedPlan a) (hc : Spec.FixedPlan c) (dt : Dtype)
    (hle : p + (Spec.planLength a + Spec.planLength c) ≤ s.seq.length) :
    readPlan s (a ++ ⟨dt, none⟩ :: c) p =
      readPlan s (a ++ ⟨dt, some (s.seq.length - p - (Spec.planLength a + Spec.planLength c))⟩ :: c) p := by
  rw [readPlan_oneStretchy ha hc, if_neg (by omega), readPlan_of_fixed (fixedPlan_insert ha hc dt _)]

theorem readPlan_stretchy_overrun (ha : Spec.FixedPlan a) (hc : Spec.FixedPlan c) (dt : Dtype)
    (hover : s.seq.length < p + (Spec.planLength a + Spec.planLength c)) :
    readPlan s (a ++ ⟨dt, none⟩ :: c) p = .raise (.read .overrun) (some a.length) := by
  rw [readPlan_oneStretchy ha hc, if_pos (by omega)]

end

/-- Settles O28: the plan read resolves the one stretchy entry, from `pos` and from 0 alike. -/
theorem stretchyEntryTakesWhatRemains : Obligations.StretchyEntryTakesWhatRemains := by
  intro s a c dt hfault _ ha hc plan total overrun
  refine ⟨fun hle => ?_, fun hover => ?_, fun hle => ?_, fun hover => ?_⟩
  · have hplan := readPlan_stretchy ha hc dt hle
    rw [exec_readlist_of_readPlan hfault hplan, exec_peeklist_of_readPlan hfault hplan]
    exact ⟨(exec_readlist_of_readPlan hfault rfl).symm, (exec_peeklist_of_readPlan hfault rfl).symm⟩
  · have hplan := readPlan_stretchy_overrun ha hc dt hover
    exact ⟨exec_readlist_of_readPlan hfault hplan, exec_peeklist_of_readPlan hfault hplan⟩
  · rw [← Nat.zero_add total] at hle
    exact (exec_unpack_of_readPlan hfault (readPlan_stretchy ha hc dt hle)).trans
      (exec_unpack_of_readPlan hfault rfl).symm
  · rw [← Nat.zero_add total] at hover
    exact exec_unpack_of_readPlan hfault (readPlan_stretchy_overrun ha hc dt hover)

/-! ## A plan of fixed lengths that fits (R140) -/

/-- The values of a plan are the first entry's and those of the rest behind it. -/
theorem planValues_cons (s : State) (t : Token) (ts : List Token) (p : Nat) :
    Spec.planValues s (t :: ts) p =
      Spec.value s.params t.dt (Spec.storedField s p (t.len.getD 0)) :: Spec.planValues s ts (p + t.len.getD 0) := by
  have hskip (j : Nat) : p + Spec.planLength ((t :: ts).take (j + 1)) = p + t.len.getD 0 + Spec.planLength (ts.take j) := by
    rw [List.take_succ_cons, planLength_cons, Nat.add_assoc]
  simp only [Spec.planValues, List.length_cons, List.range_succ_eq_map, List.map_cons, List.map_map, Function.comp_def,
    List.getElem?_cons_succ, hskip]
  simp [Spec.planLength]

/-- Entries of lengths that their dtypes take, inside `SEQ`, are all decoded. -/
theorem readEntries_values {s : State} {plan : List Token} (hf : Spec.FixedPlan plan)
    (hok : ∀ t, t ∈ plan → Spec.LengthOk s.params t.dt (t.len.getD 0)) {j p : Nat}
    (hle : p + Spec.planLength plan ≤ s.seq.length) :
    readEntries s j plan p = .ok (Spec.planValues s plan p, p + Spec.planLength plan) := by
  induction plan generalizing j p with
  | nil => rfl
  | cons t ts ih =>
    obtain ⟨n, hn⟩ := Option.ne_none_iff_exists'.mp (hf t (by simp))
    rw [planLength_cons, ← Nat.add_assoc] at hle
    have hlen : t.len.getD (s.seq.length - p) = t.len.getD 0 := by simp [hn]
    have hfirst := readCore_value hlen (by omega) (hok t (by simp))
    have hrest := ih (fun u hu => hf u (by simp [hu])) (fun u hu => hok u (by simp [hu])) (j := j + 1) hle
    simp only [readEntries, hfirst, hrest, planValues_cons, planLength_cons, Nat.add_assoc]

/-- Such a plan is read where its total is within `MAX_LEN` (R5). -/
theorem readPlan_values {s : State} {plan : List Token} (hf : Spec.FixedPlan plan)
    (hok : ∀ t, t ∈ plan → Spec.LengthOk s.params t.dt (t.len.getD 0))
    (hw : s.params.within (Spec.planLength plan) = true) {p : Nat} (hle : p + Spec.planLength plan ≤ s.seq.length) :
    readPlan s plan p = .ok (Spec.planValues s plan p, p + Spec.planLength plan) := by
  rw [readPlan_of_fixed hf, readResolved, planTotal_eq_planLength, if_pos hw, readEntries_values hf hok hle]

/-- Settles O27: the plan is read from `pos` by READLIST and PEEKLIST, from 0 by UNPACK. -/
theorem listReadsDecodeEveryEntry : Obligations.ListReadsDecodeEveryEntry := by
  intro s plan hfault hf hok hw
  refine ⟨fun hle => ?_, fun hle => ?_⟩
  · have hplan := readPlan_values hf hok hw hle
    exact ⟨exec_readlist_of_readPlan hfault hplan, exec_peeklist_of_readPlan hfault hplan⟩
  · exact exec_unpack_of_readPlan hfault (readPlan_values hf hok hw (by rwa [Nat.zero_add]))

/-! ## READLIST against the READs of its tokens (R149) -/

/-- The state after a READ that took the value and the bits of `r`. -/
def State.afterRead (s : State) (r : Int × Nat) : State := { s with pos := s.pos + r.2 }.respond (.int r.1)

@[simp] theorem State.afterRead_pos (s : State) (r : Int × Nat) : (s.afterRead r).pos = s.pos + r.2 := rfl
@[simp] theorem State.afterRead_fault (s : State) (r : Int × Nat) : (s.afterRead r).fault = s.fault := rfl

/-- What the READs of a plan, its first entry at index `j`, answer when they are one command: all the values and the end position,
or the error at the index of the READ that failed. -/
def readsAsPlan (j : Nat) (run : List Int × Option Error × State) : Staged (List Int × Nat) :=
  match run.2.1 with
  | none   => .ok (run.1, run.2.2.pos)
  | some e => .raise e (some (j + run.1.length))

section
variable {s : State} {t : Token} {ts plan : List Token}

/-- A READ that succeeds is followed by the READs of the other tokens. -/
theorem readsInOrder_cons_ok {r : Int × Nat} (hfault : s.fault = false) (h : readCore s t.dt t.len s.pos = .ok r) :
    Spec.readsInOrder (t :: ts) s =
      (r.1 :: (Spec.readsInOrder ts (s.afterRead r)).1, (Spec.readsInOrder ts (s.afterRead r)).2) := by
  have hread : exec (Instr.read t.dt t.len) s = .next (s.afterRead r) := by
    rw [exec_read, readCommand, hazardGate_clear hfault, h]; rfl
  rw [Spec.readsInOrder, hread]
  rfl

/-- A READ that fails is the last. -/
theorem readsInOrder_cons_raise {e : Error} {j : Option Nat} (hfault : s.fault = false)
    (h : readCore s t.dt t.len s.pos = .raise e j) :
    Spec.readsInOrder (t :: ts) s = ([], some e, s.raiseError e j) := by
  rw [Spec.readsInOrder, exec_read, readCommand, hazardGate_clear hfault, h]
  rfl

theorem State.Inv.afterRead (hs : s.Inv) {dt : Dtype} {len : Option Nat} {r : Int × Nat}
    (h : readCore s dt len s.pos = .ok r) : (s.afterRead r).Inv :=
  (hs.with_pos (readCore_eq_ok.mp h).2.1).respond _

/-- The entries of a plan are read as the READs of its tokens read them. -/
theorem readEntries_eq_readsAsPlan (hs : s.Inv) (hfault : s.fault = false) (j : Nat) :
    readEntries s j plan s.pos = readsAsPlan j (Spec.readsInOrder plan s) := by
  induction plan generalizing s j with
  | nil => rfl
  | cons t ts ih =>
    cases h : readCore s t.dt t.len s.pos with
    | refuse => exact absurd h (readCore_ne_refuse hs.mem_wf)
    | raise e k =>
      rw [readsInOrder_cons_raise hfault h, readEntries, h]
      rfl
    | ok r =>
      have hrest : readEntries s (j + 1) ts (s.pos + r.2) = readsAsPlan (j + 1) (Spec.readsInOrder ts (s.afterRead r)) :=
        (readEntries_congr (s := s) (s' := s.afterRead r) rfl rfl rfl ts (j + 1) _).symm.trans
          (ih (hs.afterRead h) hfault (j + 1))
      rw [readsInOrder_cons_ok hfault h, readEntries, h]
      simp only [hrest, readsAsPlan]
      cases (Spec.readsInOrder ts (s.afterRead r)).2.1 with
      | none => rfl
      | some e => simp; omega

/-- The READs leave the cursor behind the entries that they gave a value for. -/
theorem readsInOrder_pos (hs : s.Inv) (hfault : s.fault = false) (hf : Spec.FixedPlan plan) :
    (Spec.readsInOrder plan s).2.2.pos =
      s.pos + Spec.planLength (plan.take (Spec.readsInOrder plan s).1.length) := by
  induction plan generalizing s with
  | nil => rfl
  | cons t ts ih =>
    cases h : readCore s t.dt t.len s.pos with
    | refuse => exact absurd h (readCore_ne_refuse hs.mem_wf)
    | raise e k =>
      rw [readsInOrder_cons_raise hfault h]
      rfl
    | ok r =>
      obtain ⟨n, hn⟩ := Option.ne_none_iff_exists'.mp (hf t (by simp))
      have hlen : r.2 = t.len.getD 0 := by
        obtain ⟨-, -, hlen, -⟩ := readCore_eq_ok.mp h
        simpa [hn] using hlen
      have hrest := ih (hs.afterRead h) hfault fun u hu => hf u (by simp [hu])
      rw [readsInOrder_cons_ok hfault h, List.length_cons, List.take_succ_cons, planLength_cons, hrest,
        State.afterRead_pos, hlen, Nat.add_assoc]

/-- Over a sequence within the limit, a plan whose entries are all read has a total within the limit: it lies inside `SEQ`. -/
theorem within_planTotal_of_readEntries (hs : s.Inv) (hf : Spec.FixedPlan plan) {r : List Int × Nat}
    (h : readEntries s 0 plan s.pos = .ok r) : s.params.within (planTotal plan) = true := by
  have hend := readEntries_end hf h
  have hinside := (readEntries_ok h).2.2 hs.pos_le
  exact within_mono (by omega) hs.mem_wf

end

/-- Settles O30: the entries are read as the READs read them, once the total is within the limit. -/
theorem readlistComposesReads : Obligations.ReadlistComposesReads := by
  intro s plan hs hfault hf run
  have hentries : readEntries s 0 plan s.pos = readsAsPlan 0 run := readEntries_eq_readsAsPlan hs hfault 0
  have hplan (hw : s.params.within (planTotal plan) = true) : readPlan s plan s.pos = readsAsPlan 0 run := by
    rw [readPlan_of_fixed hf, readResolved, if_pos hw, hentries]
  refine ⟨fun hnone => ?_, fun e he => ⟨?_, readsInOrder_pos hs hfault hf, fun hw => ?_, fun hw => ?_⟩⟩
  · rw [readsAsPlan, hnone] at hentries hplan
    exact ⟨(readEntries_ok hentries).1,
      exec_readlist_of_readPlan hfault (hplan (within_planTotal_of_readEntries hs hf hentries))⟩
  · rw [readsAsPlan, he] at hentries
    obtain ⟨⟨i, hi, -, hlt⟩, -⟩ := readEntries_raise hentries
    obtain rfl := Option.some.inj hi
    omega
  · rw [readsAsPlan, he, Nat.zero_add, planTotal_eq_planLength] at hplan
    exact exec_readlist_of_readPlan hfault (hplan hw)
  · exact exec_readlist_of_readPlan hfault (readPlan_refuse_of_total hf hw _)

/-! ## PACK (R144) -/

/-- A value has one field in a dtype. -/
theorem isField_unique {prm : Params} {dt : Dtype} {n : Nat} {v : Int} {F G : Bits} (hF : Spec.IsField prm dt n v F)
    (hG : Spec.IsField prm dt n v G) : F = G := by
  obtain ⟨hFlen, hFbits⟩ := hF
  obtain ⟨hGlen, hGbits⟩ := hG
  refine List.ext_getElem? fun i => ?_
  by_cases hi : i < n
  · rw [hFbits i hi, hGbits i hi]
  · rw [List.getElem?_eq_none (by omega), List.getElem?_eq_none (by omega)]

theorem encCore_of_isField {prm : Params} {dt : Dtype} {n : Nat} {v : Int} {F : Bits} (hn : Spec.LengthOk prm dt n)
    (hv : Spec.InRange dt.sg n v) (hF : Spec.IsField prm dt n v F) : encCore prm dt (some n) v = .ok F :=
  encCore_some_eq_ok.mpr ⟨hn, hv, isField_unique hF (isField_canon_msbfirst prm v hn.2.1)⟩

/-- Entries that all encode are packed into their fields, one after the other. -/
theorem packEntries_of_forall₂ {prm : Params} {plan : List (Token × Int)} {Fs : List Bits}
    (h : List.Forall₂ (fun e F => encCore prm e.1.dt e.1.len e.2 = .ok F) plan Fs) (j : Nat) :
    packEntries prm j plan = .ok Fs.flatten := by
  induction h generalizing j with
  | nil => rfl
  | cons hfirst _ ih => exact packEntries_cons_eq_ok.mpr ⟨_, _, hfirst, ih (j + 1), rfl⟩

/-- The total is compared after the last entry. -/
theorem packCore_of_packEntries {prm : Params} {plan : List (Token × Int)} {F : Bits}
    (h : packEntries prm 0 plan = .ok F) :
    packCore prm plan = if prm.within F.length then .ok F else .refuse := by
  rw [packCore, h]

theorem exec_pack_of_packCore {s : State} {plan : List (Token × Int)} {x : Staged Bits} (h : packCore s.params plan = x) :
    exec (.pack plan) s = conclude s x fun F => s.respond (.field F) := by
  rw [exec, execPack, h]

/-- Settles O33: the specified fields are the ones that the entries encode to. -/
theorem packConcatenatesItsFields : Obligations.PackConcatenatesItsFields := by
  intro s plan Fs h
  have hfields : List.Forall₂ (fun e F => encCore s.params e.1.dt e.1.len e.2 = .ok F) plan Fs := by
    refine h.imp ?_
    rintro e F ⟨n, hlen, hn, hv, hF⟩
    rw [hlen]
    exact encCore_of_isField hn hv hF
  have hpack := packCore_of_packEntries (packEntries_of_forall₂ hfields 0)
  exact ⟨fun hw => exec_pack_of_packCore (hpack.trans (if_pos hw)),
    fun hw => exec_pack_of_packCore (hpack.trans (if_neg (ne_true_of_eq_false hw)))⟩

/-- Behind entries that all encode, entries that do not end in a field decide how the plan ends. -/
theorem packEntries_append_of_ne_ok {prm : Params} {a c : List (Token × Int)} {x : Staged Bits} (hx : ∀ F, x ≠ .ok F)
    (ha : ∀ y, y ∈ a → ∃ F, encCore prm y.1.dt y.1.len y.2 = .ok F) {j : Nat}
    (h : packEntries prm (j + a.length) c = x) : packEntries prm j (a ++ c) = x := by
  induction a generalizing j with
  | nil => exact h
  | cons y ys ih =>
    obtain ⟨F, hF⟩ := ha y (by simp)
    have hrest := ih (fun z hz => ha z (by simp [hz])) (j := j + 1) (by rw [← h, List.length_cons]; congr 1; omega)
    rw [List.cons_append, packEntries, hF, hrest]
    cases x with
    | ok G => exact absurd rfl (hx G)
    | raise | refuse => rfl

/-- An error that ENC answers, which carries no index, is the one that EncCore raises. -/
theorem encCore_of_exec_enc_error {s : State} {dt : Dtype} {len : Option Nat} {v : Int} {e : Error}
    (h : exec (Instr.enc dt len v) s = .next (s.raiseError e none)) : encCore s.params dt len v = .raise e none := by
  rw [exec_enc, encCommand] at h
  rcases conclude_eq_next.mp h with ⟨F, -, hs⟩ | ⟨e', j, hraise, hs⟩
  · simpa using congrArg State.reply hs
  · obtain ⟨rfl, rfl⟩ : e = e' ∧ none = j := by simpa using congrArg State.reply hs
    exact hraise

/-- Settles O34: the entry that does not encode ends the plan as it ends ENC, an error with its index. -/
theorem packReportsTheFirstFailingEntry : Obligations.PackReportsTheFirstFailingEntry := by
  intro s a c t v ha
  have hencode : ∀ y, y ∈ a → ∃ F, encCore s.params y.1.dt y.1.len y.2 = .ok F :=
    fun y hy => (ha y hy).imp fun _ => exec_enc_eq_field.mp
  refine ⟨fun e h => ?_, fun r h => ?_⟩
  · have hentries : packEntries s.params 0 (a ++ (t, v) :: c) = .raise e (some a.length) :=
      packEntries_append_of_ne_ok (by simp) hencode (by rw [packEntries, encCore_of_exec_enc_error h, Nat.zero_add])
    exact exec_pack_of_packCore (by rw [packCore, hentries])
  · rw [exec_enc, encCommand] at h
    obtain ⟨hrefuse, rfl⟩ := conclude_eq_refused.mp h
    have hentries : packEntries s.params 0 (a ++ (t, v) :: c) = .refuse :=
      packEntries_append_of_ne_ok (by simp) hencode (by rw [packEntries, hrefuse])
    exact exec_pack_of_packCore (by rw [packCore, hentries])

end Sys2Proof.Machine
end

section
/-! The statements of 60_exceptions (R150 to R156): what a failing command changes, which errors each command answers, and
which entry an error's index names. -/

namespace Sys2Proof.Machine

/-! ## Nothing happens between commands (R156) -/

/-- Settles O4: there is no transaction to take (log 6). -/
theorem idleStepChangesNothing : Obligations.IdleStepChangesNothing := by
  intro s hport
  rw [step, State.takeTransaction_nil hport]

/-! ## What a failing command changes (R153) -/

/-- What a command that answers an error has done: raised it and changed nothing else, or switched the origin mid-stream. -/
theorem exec_error_effect {i : Instr} {s t : State} {e : Error} {j : Option Nat} (ht : t.reply = some (.err e j))
    (h : exec i s = .next t) :
    (e ≠ .originHazard .switch ∧ t = s.raiseError e j) ∨
    (e = .originHazard .switch ∧ ∃ o, i = .setorigin o ∧ o ≠ s.origin ∧ s.pos ≠ 0 ∧
      t = { s with origin := o }.setFault.raiseError e j) := by
  rcases exec_effect h with ⟨e', j', rfl, hne⟩ | ⟨r, rfl, -⟩ | ⟨r, p, rfl, -⟩ | ⟨p, -, -, -, rfl⟩ |
    ⟨o, rfl, ⟨ho, hp, rfl⟩ | ⟨-, rfl⟩⟩ | ⟨q, -, -, rfl⟩
  case inl =>
    obtain ⟨rfl, rfl⟩ : e' = e ∧ j' = j := by simpa using ht
    exact .inl ⟨hne, rfl⟩
  case inr.inr.inr.inr.inl.inl =>
    obtain ⟨rfl, rfl⟩ : .originHazard .switch = e ∧ none = j := by simpa using ht
    exact .inr ⟨rfl, o, rfl, ho, hp, rfl⟩
  all_goals simp at ht

/-- Settles O45: an illegal transaction raises its error and changes nothing else; the rest is the command's. -/
theorem failingCommandsChangeNoState : Obligations.FailingCommandsChangeNoState := by
  intro s s' t ts e j hport h hreply
  rcases step_effect h with ⟨hidle, -⟩ | ⟨t', ts', hport', hcase⟩
  · simp [hport] at hidle
  obtain ⟨rfl, rfl⟩ : t' = t ∧ ts' = ts := by simpa [hport'] using hport
  rcases hcase with ⟨c, rfl⟩ | ⟨i, hd, hx⟩
  · obtain ⟨rfl, rfl⟩ : .illegalCommand c = e ∧ none = j := by simpa using hreply
    exact .inl ⟨by simp, rfl⟩
  · rcases exec_error_effect hreply hx with ⟨hne, rfl⟩ | ⟨he, o, rfl, ho, hp, rfl⟩
    · exact .inl ⟨hne, rfl⟩
    · exact .inr ⟨he, o, hd, ho, hp, rfl⟩

/-! ## The error and the index that each command answers (R150, R151) -/

section
variable {α : Type} {s t : State} {x : Staged α} {k : α → State} {f : α → Result} {e : Error} {j : Option Nat}

/-- An error that stands on the ports after a pipeline is the one that it raised. -/
theorem conclude_failure (hk : ∀ a, (k a).reply = some (.ok (f a))) (ht : t.reply = some (.err e j))
    (h : conclude s x k = .next t) : x = .raise e j := by
  rcases conclude_eq_next.mp h with ⟨a, -, rfl⟩ | ⟨e', j', hx, rfl⟩
  · simp [hk] at ht
  · obtain ⟨rfl, rfl⟩ : e' = e ∧ j' = j := by simpa using ht
    exact hx

/-- The same behind the hazard gate, which has an error of its own, without an index (R121). -/
theorem gated_conclude_failure (hk : ∀ a, (k a).reply = some (.ok (f a))) (ht : t.reply = some (.err e j))
    (h : hazardGate s (conclude s x k) = .next t) : (e = .originHazard .undefined ∧ j = none) ∨ x = .raise e j := by
  rcases hazardGate_eq_next.mp h with ⟨-, rfl⟩ | ⟨-, hc⟩
  · obtain ⟨rfl, rfl⟩ : .originHazard .undefined = e ∧ none = j := by simpa using ht
    exact .inl ⟨rfl, rfl⟩
  · exact .inr (conclude_failure hk ht hc)

end

section
variable {s t : State} {e : Error} {j : Option Nat} (ht : t.reply = some (.err e j))
include ht

theorem exec_enc_error {dt : Dtype} {len : Option Nat} {v : Int} (h : exec (Instr.enc dt len v) s = .next t) :
    j = none ∧ e.code ∈ [1, 3] := by
  rw [exec_enc] at h
  obtain ⟨hj, ⟨c, rfl⟩ | ⟨n, rfl⟩⟩ := encCore_raise (conclude_failure (fun _ => rfl) ht h)
  · exact ⟨hj, by simp [Error.code]⟩
  · exact ⟨hj, by simp [Error.code]⟩

theorem exec_dec_error {dt : Dtype} {F : Bits} (h : exec (Instr.dec dt F) s = .next t) :
    j = none ∧ e.code ∈ [2, 3] := by
  rw [exec_dec] at h
  obtain ⟨hj, rfl | rfl⟩ := decCore_raise (conclude_failure (fun _ => rfl) ht h)
  · exact ⟨hj, by simp [Error.code]⟩
  · exact ⟨hj, by simp [Error.code]⟩

/-- The errors of a gated command that reads one field: READ and PEEK. -/
theorem gated_readCore_error {dt : Dtype} {len : Option Nat} {k : Int × Nat → State} {f : Int × Nat → Result}
    (hk : ∀ a, (k a).reply = some (.ok (f a))) (h : hazardGate s (conclude s (readCore s dt len s.pos) k) = .next t) :
    j = none ∧ e.code ∈ [2, 3, 4, 7] := by
  rcases gated_conclude_failure hk ht h with ⟨rfl, hj⟩ | hx
  · exact ⟨hj, by simp [Error.code]⟩
  · obtain ⟨hj, hcode⟩ := readCore_raise hx
    exact ⟨hj, List.mem_append_left [7] hcode⟩

theorem exec_read_error {dt : Dtype} {len : Option Nat} (h : exec (Instr.read dt len) s = .next t) :
    j = none ∧ e.code ∈ [2, 3, 4, 7] :=
  gated_readCore_error ht (fun _ => rfl) (exec_read .. ▸ h)

theorem exec_peek_error {dt : Dtype} {len : Option Nat} (h : exec (Instr.peek dt len) s = .next t) :
    j = none ∧ e.code ∈ [2, 3, 4, 7] :=
  gated_readCore_error ht (fun _ => rfl) (exec_peek .. ▸ h)

/-- The errors of a gated command that reads a plan: READLIST, PEEKLIST and UNPACK. -/
theorem gated_readPlan_error {plan : List Token} {p : Nat} {k : List Int × Nat → State} {f : List Int × Nat → Result}
    (hk : ∀ a, (k a).reply = some (.ok (f a))) (h : hazardGate s (conclude s (readPlan s plan p) k) = .next t) :
    (∀ i ∈ j, i < plan.length) ∧ e.code ∈ [1, 2, 3, 4, 7] := by
  rcases gated_conclude_failure hk ht h with ⟨rfl, rfl⟩ | hx
  · simp [Error.code]
  · obtain ⟨⟨i, rfl, hi⟩, hcode⟩ := readPlan_raise hx
    exact ⟨by simpa using hi, List.mem_append_left [7] hcode⟩

theorem exec_readlist_error {plan : List Token} (h : exec (.readlist plan) s = .next t) :
    (∀ i ∈ j, i < plan.length) ∧ e.code ∈ [1, 2, 3, 4, 7] :=
  gated_readPlan_error ht (fun _ => rfl) h

theorem exec_peeklist_error {plan : List Token} (h : exec (.peeklist plan) s = .next t) :
    (∀ i ∈ j, i < plan.length) ∧ e.code ∈ [1, 2, 3, 4, 7] :=
  gated_readPlan_error ht (fun _ => rfl) h

theorem exec_unpack_error {plan : List Token} (h : exec (.unpack plan) s = .next t) :
    (∀ i ∈ j, i < plan.length) ∧ e.code ∈ [1, 2, 3, 4, 7] :=
  gated_readPlan_error ht (fun _ => rfl) h

theorem exec_pack_error {plan : List (Token × Int)} (h : exec (.pack plan) s = .next t) :
    (∀ i ∈ j, i < plan.length) ∧ e.code ∈ [1, 3] := by
  obtain ⟨⟨i, rfl, hi⟩, hcode⟩ := packCore_raise (conclude_failure (fun _ => rfl) ht h)
  exact ⟨by simpa using hi, hcode⟩

theorem exec_setpos_error {p : Int} (h : exec (.setpos p) s = .next t) : j = none ∧ e = .valuePosRange := by
  rcases execSetpos_eq_next.mp h with ⟨-, rfl⟩ | ⟨-, rfl⟩
  · simp at ht
  · simpa [eq_comm, and_comm] using ht

theorem exec_setorigin_error {o : Origin} (h : exec (.setorigin o) s = .next t) :
    j = none ∧ e = .originHazard .switch := by
  rcases execSetorigin_eq_next.mp h with ⟨-, rfl⟩ | ⟨-, rfl⟩
  · simpa [eq_comm, and_comm] using ht
  · simp at ht

theorem exec_bind_ne_of_error (q : Bits) : exec (.bind q) s ≠ .next t := by
  intro h
  obtain ⟨-, rfl⟩ := execBind_eq_next.mp h
  simp at ht

theorem exec_getpos_ne_of_error : exec .getpos s ≠ .next t := by
  intro h
  obtain rfl := Host.Outcome.next.inj h
  simp at ht

end

/-- Settles O48: the codes of each command's errors. -/
theorem commandsRaiseTheirOwnErrors : Obligations.CommandsRaiseTheirOwnErrors := by
  intro s t e j ht
  refine ⟨fun _ _ _ h => (exec_enc_error ht h).2, fun _ _ h => (exec_dec_error ht h).2,
    fun _ _ h => (exec_read_error ht h).2, fun _ _ h => (exec_peek_error ht h).2,
    fun _ h => (exec_readlist_error ht h).2, fun _ h => (exec_peeklist_error ht h).2,
    fun _ h => (exec_unpack_error ht h).2, fun _ h => (exec_pack_error ht h).2, fun p h => ?setpos, fun o h => ?setorigin,
    exec_bind_ne_of_error ht, exec_getpos_ne_of_error ht⟩
  case setpos => rw [(exec_setpos_error ht h).2, Error.code]
  case setorigin => rw [(exec_setorigin_error ht h).2, Error.code]

/-- Settles O49: the errors of the other commands carry no index. -/
theorem errorIndexIsAnEntryOfThePlan : Obligations.ErrorIndexIsAnEntryOfThePlan := by
  intro i s t e j h ht
  rcases instr_shapes i with
    ⟨dt, len, v, rfl⟩ | ⟨dt, F, rfl⟩ | ⟨dt, len, rfl⟩ | ⟨dt, len, rfl⟩ | ⟨p, rfl⟩ | ⟨p, rfl⟩ | ⟨p, rfl⟩ | ⟨p, rfl⟩ |
    ⟨p, rfl⟩ | ⟨o, rfl⟩ | ⟨q, rfl⟩ | rfl
  · exact absurd (exec_enc_error ht h).1 (Option.some_ne_none j)
  · exact absurd (exec_dec_error ht h).1 (Option.some_ne_none j)
  · exact absurd (exec_read_error ht h).1 (Option.some_ne_none j)
  · exact absurd (exec_peek_error ht h).1 (Option.some_ne_none j)
  · exact .inl ⟨p, .inl rfl, (exec_readlist_error ht h).1 j rfl⟩
  · exact .inl ⟨p, .inr (.inl rfl), (exec_peeklist_error ht h).1 j rfl⟩
  · exact .inl ⟨p, .inr (.inr rfl), (exec_unpack_error ht h).1 j rfl⟩
  · exact .inr ⟨p, rfl, (exec_pack_error ht h).1 j rfl⟩
  · exact absurd (exec_setpos_error ht h).1 (Option.some_ne_none j)
  · exact absurd (exec_setorigin_error ht h).1 (Option.some_ne_none j)
  · exact absurd h (exec_bind_ne_of_error ht q)
  · exact absurd h (exec_getpos_ne_of_error ht)

end Sys2Proof.Machine
end

section
/-! The statements of 70_reset_and_hazards (R170 to R173): what reset leaves, what stays so until the first BIND, and the origin
switch without the hazard. -/

namespace Sys2Proof.Machine

/-! ## Before the first BIND (R172) -/

/-- BIND is the one command that writes `SEQ` (R20). -/
theorem exec_keeps_seq_of_ne_bind {i : Instr} {s t : State} (hi : ∀ q, i ≠ .bind q) (h : exec i s = .next t) :
    t.seq = s.seq :=
  by_contra fun hne => hi t.seq ((stateElementsHaveTheirWriters i s t h).1 hne)

/-- Where the cursor stands at 0, an origin switch is no hazard, so no command sets `FAULT` (R145). -/
theorem exec_keeps_fault_clear_of_pos_zero {i : Instr} {s t : State} (hpos : s.pos = 0) (hfault : s.fault = false)
    (h : exec i s = .next t) : t.fault = false := by
  refine eq_false_of_ne_true fun ht => ?_
  obtain ⟨o, -, -, hne⟩ := hazardous_of_exec_sets_fault h hfault ht
  exact hne hpos

/-- The empty sequence with the cursor at its end is within every limit. -/
theorem State.inv_of_seq_nil {s : State} (hseq : s.seq = []) (hpos : s.pos = 0) : s.Inv :=
  ⟨by simp [hpos], by rw [hseq]; exact reset_memory_wf s.params⟩

/-- Settles O26: the cursor is at the end of the empty sequence, and by the invariant it stays there while `SEQ` is not written. -/
theorem readBeforeBindIsEndOfStream : Obligations.ReadBeforeBindIsEndOfStream := by
  intro s hseq hpos hfault
  have hend : s.pos = s.seq.length := by rw [hpos, hseq, List.length_nil]
  refine ⟨fun dt len => ?_, fun i t hi h => ?_⟩
  · obtain ⟨-, hread⟩ := readRunsItsStagesInOrder s dt len
    obtain ⟨-, hpeek⟩ := peekRunsItsStagesInOrder s dt len
    exact ⟨(hread hfault hend.le).1 hend, (hpeek hfault hend.le).1 hend⟩
  · have hempty : t.seq = [] := (exec_keeps_seq_of_ne_bind hi h).trans hseq
    have hinv : t.pos ≤ t.seq.length := (exec_keeps_inv (State.inv_of_seq_nil hseq hpos) h).pos_le
    rw [hempty] at hinv
    exact ⟨hempty, Nat.le_zero.mp hinv, exec_keeps_fault_clear_of_pos_zero hpos hfault h⟩

/-! ## The origin switch without the hazard (R173) -/

/-- Settles O40: SETORIGIN finds the cursor at 0, so its branch without the hazard runs whatever the new origin is. -/
theorem hazardFreeOriginSwitch : Obligations.HazardFreeOriginSwitch := by
  intro s o p hp
  have hrewind := (setposSetsTheCursorInRange s 0).1 (by omega)
  have hswitch := (setoriginSwitchesAndFlagsTheHazard { s with pos := 0, reply := some (.ok .none) } o).2 (.inr rfl)
  refine ⟨_, _, hrewind, hswitch, ?_⟩
  exact (setposSetsTheCursorInRange _ p).1 ⟨Int.natCast_nonneg p, Int.ofNat_le.mpr hp⟩

/-! ## Reset (R170) -/

/-- Settles O1: the fields of the reset state, one by one. -/
theorem resetLeavesTheStatedValues : Obligations.ResetLeavesTheStatedValues :=
  fun prm => ⟨State.resetOf_origin prm, State.resetOf_pos prm, State.resetOf_seq prm, State.resetOf_fault prm,
    State.resetOf_params prm⟩

end Sys2Proof.Machine
end
